-- ==== Sys2Proof/Word.lean ====
section
/-! DEFINITION. The widths of the machine: a byte of the stream, a 32-bit register or cell, a register index. -/

namespace Sys2Proof

/-- A byte of the instruction stream (`00_scope.md` section 5.1). -/
abbrev Byte := BitVec 8

/-- A register or a memory cell: one unsigned 32-bit value (R7 XLEN; R10, R21). -/
abbrev Word := BitVec 32

/-- A register index, 0 to 31 (R7 NREGS; R10). -/
abbrev RegIndex := Fin 32

end Sys2Proof
end

