-- ==== Sys2Proof/Config.lean ====
section
/-! DEFINITION. The parameters of the machine (R8): the four opcode tags and the memory size. The one value the spec
leaves unspecified, `Config.afterFailedLoad`, stands at the end of `Machine/State.lean`, since it is about states. -/

namespace Sys2Proof

/-- The opcode tags TAG_LC, TAG_RM, TAG_WM, TAG_SHR (R8, R52). The source gives them no value. -/
structure Tags where
  loadConst : Byte
  readMem : Byte
  writeMem : Byte
  shiftRight : Byte
  deriving DecidableEq, Repr, Inhabited

/-- The tags are "pairwise distinct" (R8, R52). -/
abbrev Tags.distinct (t : Tags) : Prop :=
  [t.loadConst, t.readMem, t.writeMem, t.shiftRight].Nodup

/-- The parameters of an engine, fixed for its life (R8, R25). -/
structure Config where
  tags : Tags
  /-- MEM_SIZE, the number of memory cells. -/
  memSize : Nat
  deriving DecidableEq, Repr, Inhabited

/-- The constraints of R8: distinct tags, and at most 2^32 cells. -/
abbrev Config.wf (c : Config) : Prop := c.tags.distinct ∧ c.memSize ≤ 2 ^ 32

end Sys2Proof
end

