-- ==== Sys2Proof/Machine/Params.lean ====
section
/-! DEFINITION. The reference values of the two open parameters (R8), which `State.reset` and `decodeTableWord` use.
DESIGN CHOICE, unsafe (notes/assumptions/1.md): the source gives no tag and no memory size. -/

namespace Sys2Proof.Machine

/-- TAG_LC = 0x01, TAG_RM = 0x02, TAG_WM = 0x03, TAG_SHR = 0x04 (R8, R52). -/
def referenceTags : Tags :=
  { loadConst := 0x01#8, readMem := 0x02#8, writeMem := 0x03#8, shiftRight := 0x04#8 }

/-- The reference tags with MEM_SIZE = 2^30 (R8). -/
def referenceConfig : Config := { tags := referenceTags, memSize := 2 ^ 30 }

end Sys2Proof.Machine
end

