-- ==== Sys2Proof/Syntax.lean ====
section
/-! DEFINITION. The instruction set: four kinds, closed (R5), each with two operands inside their ranges (R66). -/

namespace Sys2Proof

/-- The four instruction kinds (R5). -/
inductive Kind where
  | loadConst
  | readMem
  | writeMem
  | shiftRight
  deriving DecidableEq, Repr, Inhabited

/-- The names of the operand fields (R66), as a `DecodeError`, a `ValidationError` or a `ParseError` reports them
(R131, R133). A `DecodeError` never names `value`: every 3-byte constant is legal (R53). -/
inductive Field where
  | reg
  | dstReg
  | srcReg
  | addrReg
  | value
  | address
  deriving DecidableEq, Repr, Inhabited

/-- An instruction term (`00_scope.md` section 5.4). The operand types hold exactly the legal ranges of R66, so an
instruction with an operand out of range cannot be written: "only valid instructions exist". The check that turns raw
numbers into an `Instr`, or refuses them, is `Candidate.validate` in `WellFormed.lean`. -/
inductive Instr where
  /-- `LOAD_CONST reg, value` (R110). -/
  | loadConst (reg : RegIndex) (value : BitVec 24)
  /-- `READ_MEM dst_reg, addr_reg` (R115). -/
  | readMem (dstReg addrReg : RegIndex)
  /-- `WRITE_MEM src_reg, addr_reg` (R116). -/
  | writeMem (srcReg addrReg : RegIndex)
  /-- `SHR reg, address` (R125). -/
  | shiftRight (reg : RegIndex) (address : BitVec 30)
  deriving DecidableEq, Repr, Inhabited

/-- The kind of an instruction, which alone selects the operation (R92). -/
def Instr.kind : Instr → Kind
  | .loadConst _ _ => .loadConst
  | .readMem _ _ => .readMem
  | .writeMem _ _ => .writeMem
  | .shiftRight _ _ => .shiftRight

end Sys2Proof
end

