-- ==== Sys2Proof/Decode.lean ====
section
/-! DEFINITION. The instruction decoder (R50 to R64) and, after it, the encoder it inverts (R57). -/

namespace Sys2Proof

/-- Why a load fails (R131). Raised by the decoder only; no instruction raises it. -/
inductive DecodeError where
  /-- The byte where a tag is expected is none of the four tags (R60). -/
  | unknownTag (offset : Nat) (tag : Byte)
  /-- Fewer bytes remain, counted from the tag, than the kind's length (R61). -/
  | truncated (offset : Nat) (tag : Byte) (need remaining : Nat)
  /-- A register byte is above 31, or the address above 2^30 - 1 (R62). -/
  | fieldOutOfRange (offset : Nat) (field : Field) (value : Nat)
  deriving DecidableEq, Repr, Inhabited

/-- The number a multi-byte field stands for: big-endian, unsigned (R56). -/
def beNat : List Byte → Nat :=
  List.foldl (fun acc b => acc * 256 + b.toNat) 0

/-- A register byte: 0 to 31, or the field is out of range (R62, R63). -/
def regField (offset : Nat) (f : Field) (b : Byte) : Except DecodeError RegIndex :=
  if h : b.toNat < 32 then .ok ⟨b.toNat, h⟩ else .error (.fieldOutOfRange offset f b.toNat)

/-- The constant field of format LC: every 3-byte value is legal (R53, R56). -/
def constField (b2 b1 b0 : Byte) : BitVec 24 := BitVec.ofNat 24 (beNat [b2, b1, b0])

/-- The address field of format SA: a 4-byte number of at most 2^30 - 1, or out of range (R55, R62). -/
def addressField (offset : Nat) (b3 b2 b1 b0 : Byte) : Except DecodeError (BitVec 30) :=
  let a := beNat [b3, b2, b1, b0]
  if a ≤ 1073741823 then .ok (BitVec.ofNat 30 a) else .error (.fieldOutOfRange offset .address a)

/-- `decode_one` (R58) of the instruction whose tag byte `tag` stands at `offset`, with `rest` the bytes after the tag up
to the end of the stream: the instruction and its length in bytes. The checks stand in the order unknown tag, truncation,
fields in stream order (R58, R136). -/
def decodeOne (t : Tags) (offset : Nat) (tag : Byte) (rest : List Byte) : Except DecodeError (Instr × Nat) :=
  if tag = t.loadConst then
    match rest with
    | b1 :: b2 :: b3 :: b4 :: _ => do
      let reg ← regField offset .reg b1
      pure (.loadConst reg (constField b2 b3 b4), 5)
    | _ => .error (.truncated offset tag 5 (rest.length + 1))
  else if tag = t.readMem then
    match rest with
    | b1 :: b2 :: _ => do
      let dst ← regField offset .dstReg b1
      let addr ← regField offset .addrReg b2
      pure (.readMem dst addr, 3)
    | _ => .error (.truncated offset tag 3 (rest.length + 1))
  else if tag = t.writeMem then
    match rest with
    | b1 :: b2 :: _ => do
      let src ← regField offset .srcReg b1
      let addr ← regField offset .addrReg b2
      pure (.writeMem src addr, 3)
    | _ => .error (.truncated offset tag 3 (rest.length + 1))
  else if tag = t.shiftRight then
    match rest with
    | b1 :: b2 :: b3 :: b4 :: b5 :: _ => do
      let reg ← regField offset .reg b1
      let address ← addressField offset b2 b3 b4 b5
      pure (.shiftRight reg address, 6)
    | _ => .error (.truncated offset tag 6 (rest.length + 1))
  else .error (.unknownTag offset tag)

/-- The scan of `decode_program` (R59) at byte `offset` of the stream, the next `skip` bytes of which belong to the
instruction last decoded. The loop of R59 moves by a whole instruction; this one moves by a byte and decodes where no
byte is left to skip, which is the same scan and is structural in the stream. -/
def decodeFrom (t : Tags) (offset skip : Nat) : List Byte → Except DecodeError (List Instr)
  | [] => .ok []
  | b :: rest =>
    match skip with
    | k + 1 => decodeFrom t (offset + 1) k rest
    | 0 => do
      let (i, width) ← decodeOne t offset b rest
      let is ← decodeFrom t (offset + 1) (width - 1) rest
      pure (i :: is)

/-- `decode_program` (R59): the whole stream, or the first error met scanning from offset 0. -/
def decodeProgram (t : Tags) (stream : List Byte) : Except DecodeError (List Instr) :=
  decodeFrom t 0 0 stream

/-- Byte `k` of a number, byte 0 the least significant. -/
def byteOf (n k : Nat) : Byte := BitVec.ofNat 8 (n / 256 ^ k)

/-- `encode` (R57): the bytes of an instruction. -/
def encode (t : Tags) : Instr → List Byte
  | .loadConst reg value =>
    [t.loadConst, byteOf reg.val 0, byteOf value.toNat 2, byteOf value.toNat 1, byteOf value.toNat 0]
  | .readMem dst addr => [t.readMem, byteOf dst.val 0, byteOf addr.val 0]
  | .writeMem src addr => [t.writeMem, byteOf src.val 0, byteOf addr.val 0]
  | .shiftRight reg address =>
    [t.shiftRight, byteOf reg.val 0, byteOf address.toNat 3, byteOf address.toNat 2, byteOf address.toNat 1,
      byteOf address.toNat 0]

/-- `encode_program` (R57): the concatenation of the encodings, in program order. -/
def encodeProgram (t : Tags) (p : List Instr) : List Byte := p.flatMap (encode t)

/-- The length in bytes of an instruction of a kind, which depends on the kind alone (R51). -/
def Kind.length : Kind → Nat
  | .loadConst => 5
  | .readMem => 3
  | .writeMem => 3
  | .shiftRight => 6

/-- The tag of a kind (R52). -/
def Tags.ofKind (t : Tags) : Kind → Byte
  | .loadConst => t.loadConst
  | .readMem => t.readMem
  | .writeMem => t.writeMem
  | .shiftRight => t.shiftRight

/-- The length in bytes of the longest instruction, `SHR` (R51). -/
def longestInstr : Nat := 6

/-- The bytes of an instruction given as `spec/opcode_table.json` numbers its bits: one big-endian number of `nbits`
bits, byte 0 (the tag) the most significant, followed by zero bytes up to the longest instruction (`30_encoding.md`
section 3; notes/assumptions/7.md). -/
def tableBytes (nbits w : Nat) : List Byte :=
  let n := (nbits + 7) / 8
  (List.range n).map (fun k => byteOf w (n - 1 - k)) ++ List.replicate (longestInstr - n) 0#8

/-- `decode_one` at the head of a byte list, under the given tags; the empty list holds no tag and decodes to nothing. -/
def decodeHead (t : Tags) : List Byte → Option (Except DecodeError (Instr × Nat))
  | [] => none
  | b :: rest => some (decodeOne t 0 b rest)

/-- The instruction the decoder reads, with the reference tags, from a table word (`none` where it refuses). -/
def decodeTableWord (nbits w : Nat) : Option Instr :=
  match decodeHead Machine.referenceTags (tableBytes nbits w) with
  | some (.ok (i, _)) => some i
  | _ => none

end Sys2Proof
end

