-- ==== Sys2Proof/Machine/State.lean ====
section
/-! DEFINITION. The state of the machine: the tuple (x, pc, P, M, status) of `10_state.md`, with the parameters of the
engine beside it, and the reasons a step can stop. -/

namespace Sys2Proof.Machine

/-- Data memory as the list of the cells that do not hold 0: (cell address, value), the addresses strictly rising. The
unit is the 32-bit cell, the smallest the spec has (R31, R32; notes/assumptions/5.md). A cell that is not listed reads
as 0, the value a load gives every cell (R24). -/
abbrev Memory := List (Nat × Word)

/-- The canonical form: addresses strictly rising, and no cell listed that holds 0, what an unlisted cell reads as. -/
abbrev Memory.wf (m : Memory) : Prop :=
  m.Pairwise (fun p q => p.1 < q.1) ∧ ∀ p ∈ m, p.2 ≠ 0#32

/-- The record of an `OutOfBoundsError` (R132): the index of the failing instruction and the full 32-bit cell address. -/
structure OutOfBounds where
  pc : Nat
  addr : Word
  deriving DecidableEq, Repr, Inhabited

/-- The engine status with its fault record (R18, R19). -/
inductive Status where
  /-- A program is held, no fatal error has occurred, and pc < N. -/
  | loaded
  /-- A program is held, no fatal error has occurred, and pc = N. -/
  | halted
  /-- The last load raised a `DecodeError`; no program is held. -/
  | loadFailed (e : DecodeError)
  /-- A step raised `OutOfBoundsError`; the run stopped. -/
  | aborted (e : OutOfBounds)
  deriving DecidableEq, Repr, Inhabited

/-- The state of an engine. -/
structure State where
  /-- The parameters (R8). The MODEL's own field: the spec makes them arguments, not state (R25), and no operation writes
  them (notes/assumptions/1.md). -/
  cfg : Config
  /-- The register file x[0] to x[31] (R10). All alike; none is hard-wired (R11). -/
  regs : Vector Word 32
  /-- The program counter: the index of the next instruction, an unbounded natural number (R13, R15). -/
  pc : Nat
  /-- The program store P; its length is N (R20). -/
  program : List Instr
  /-- The memory array M (R21). -/
  mem : Memory
  /-- The engine status, with the fault record inside it (R18, R19). -/
  status : Status
  deriving DecidableEq, Repr, Inhabited

/-- Why a step stops with a fault. -/
inductive Fault where
  /-- Raised by `step` alone, where the status is `Loaded` and the program store has no instruction at pc. SAFE: no load
  and no step produces such a state ("Fetch cannot fail", R91), so no run reaches it (notes/assumptions/6.md). -/
  | fetchOutsideProgram (pc : Nat)
  deriving DecidableEq, Repr

/-- Why an operation is refused. A refused operation makes no transition and has no result (R91, D19). -/
inductive Refusal where
  /-- Raised by an arm of `exec` whose instruction has no meaning yet. SAFE. No arm raises it: all four are modelled. -/
  | notModelled (mnemonic : String)
  /-- Raised by `step` in `Halted`, `LoadFailed` and `Aborted`, where no step is enabled (R91, R94, R139). SAFE. -/
  | stepNotEnabled (status : Status)
  /-- Raised by `snapshot` and `dump` in `LoadFailed`, where nothing may be read (R26, R45). SAFE. -/
  | readOutNotEnabled (status : Status)
  /-- Raised by `dump` where start ≤ end ≤ MEM_SIZE does not hold (R45). SAFE. -/
  | dumpRange (start stop : Nat)
  deriving DecidableEq, Repr

/-- The state right after a load that succeeds (R24, R90): all registers and cells 0, pc 0, the decoded program held. The
fault record is cleared with the status (R160). -/
def State.fresh (cfg : Config) (p : List Instr) : State :=
  { cfg := cfg
    regs := Vector.replicate 32 0#32
    pc := 0
    program := p
    mem := []
    status := if p.length = 0 then .halted else .loaded }

/-- Reset is the load (R160). The state no program has been given to is the one `Load([])` gives (R97); a program is
loaded from outside (notes/assumptions/2.md). -/
def State.reset : State := State.fresh referenceConfig []

end Sys2Proof.Machine

namespace Sys2Proof

/-- What x, pc, P and M hold after a load that fails: unspecified (R24, R90, D10), so a FREE VALUE. It may depend on the
state before the load and on the stream, and on nothing else (R96). Only those four pieces of it are used; nothing reads
them (notes/assumptions/3.md). -/
opaque Config.afterFailedLoad (before : Machine.State) (stream : List Byte) : Machine.State

end Sys2Proof
end

