-- ==== Sys2Proof/Machine/Ops.lean ====
section
/-! DEFINITION. The named operations over memory, registers, the program store and the sequencer. -/

namespace Sys2Proof.Machine

/-- The value of a cell: the listed one, else 0 (R21, R24). -/
def Memory.read : Memory → Nat → Word
  | [], _ => 0#32
  | (k, w) :: rest, a => if k = a then w else Memory.read rest a

/-- Puts a cell that is not listed into its place. -/
def Memory.insertCell (a : Nat) (v : Word) : Memory → Memory
  | [] => [(a, v)]
  | (k, w) :: rest => if a < k then (a, v) :: (k, w) :: rest else (k, w) :: Memory.insertCell a v rest

/-- `M[a] <- v` (R35): exactly one cell changes, and the canonical form stays (a cell that holds 0 is not listed). -/
def Memory.write (m : Memory) (a : Nat) (v : Word) : Memory :=
  let others := m.filter (fun p => p.1 ≠ a)
  if v = 0#32 then others else Memory.insertCell a v others

/-- `x[r]` (R10). -/
def State.getReg (s : State) (r : RegIndex) : Word := s.regs[r.val]

/-- `x[r] <- v` (R10). Every register is writable, x[0] too (R11). -/
def State.setReg (s : State) (r : RegIndex) (v : Word) : State := { s with regs := s.regs.set r.val v }

/-- N, the instruction count (R20). -/
def State.count (s : State) : Nat := s.program.length

/-- The one check on an access (R34, R35, R38): the address is below MEM_SIZE. -/
abbrev State.inBounds (s : State) (a : Word) : Prop := a.toNat < s.cfg.memSize

/-- `M[a]` of a state, for any cell address: what the host's dump shows (R45). -/
def State.cell (s : State) (a : Nat) : Word := s.mem.read a

/-- `M[a] <- v` of a state: exactly one cell changes (R35). -/
def State.setCell (s : State) (a : Nat) (v : Word) : State := { s with mem := s.mem.write a v }

/-- `MemRead(a, 32)` (R34): the check first; a read changes nothing. -/
def State.memRead (s : State) (a : Word) : Except OutOfBounds Word :=
  if s.inBounds a then .ok (s.cell a.toNat) else .error ⟨s.pc, a⟩

/-- `MemWrite(a, 32, v)` (R35): the check first; then exactly one cell changes. -/
def State.memWrite (s : State) (a : Word) (v : Word) : Except OutOfBounds State :=
  if s.inBounds a then .ok (s.setCell a.toNat v) else .error ⟨s.pc, a⟩

/-- The fetch of a step (R91): the program store at index pc. -/
def State.fetch (s : State) : Option Instr := s.program[s.pc]?

/-- The status once pc has moved to `pc`: `Halted` where it has reached the instruction count (R91, R94), else kept. -/
def haltAt (pc count : Nat) (st : Status) : Status := if pc = count then .halted else st

/-- The end of an instruction that completes: pc advances by exactly one (R14, R93), and the engine is `Halted` when it
has reached the instruction count (R91, R94). -/
def State.retire (s : State) : State :=
  { s with pc := s.pc + 1, status := haltAt (s.pc + 1) s.count s.status }

/-- TAKING THE EXCEPTION. The abort on `OutOfBoundsError e` (R137): status becomes `Aborted(e)` and nothing else changes;
pc keeps the index of the failing instruction. There is no handler and no vector, and NO RETURN (R139): only a load
leaves `Aborted`. -/
def State.abort (s : State) (e : OutOfBounds) : State := { s with status := .aborted e }

end Sys2Proof.Machine
end

