-- ==== Sys2Proof/Machine/Operands.lean ====
section
/-! DEFINITION. The operand forms: two literals, zero-extended to 32 bits (R56), and one addressing mode, register
indirect (`42_read_write_mem.md`). The machine has no flags, so there is no file of flag computations (R16). -/

namespace Sys2Proof.Machine

/-- `zext_32(value)` of the constant of `LOAD_CONST` (R56, R110). -/
def constOperand (value : BitVec 24) : Word := value.setWidth 32

/-- The literal cell address of `SHR` as a 32-bit address (R31, R125). -/
def literalAddress (address : BitVec 30) : Word := address.setWidth 32

/-- The register-held cell address of `READ_MEM` and `WRITE_MEM`: the full 32-bit value, with no offset, scaling or
masking (R31). -/
def registerAddress (s : State) (addrReg : RegIndex) : Word := s.getReg addrReg

end Sys2Proof.Machine
end

