-- ==== Sys2Proof/Machine/ConstantLoad.lean ====
section
/-! DEFINITION. The constant-load family: LOAD_CONST (`41_load_const.md`). -/

namespace Sys2Proof.Machine

/-- `LOAD_CONST reg, value` (R110): `x[reg] <- zext_32(value); pc <- pc + 1`. It raises nothing. -/
def execLoadConst (reg : RegIndex) (value : BitVec 24) (s : State) : Host.Outcome State Fault Refusal :=
  .next (s.setReg reg (constOperand value)).retire

end Sys2Proof.Machine
end

