-- ==== Sys2Proof/Machine/MemoryAccess.lean ====
section
/-! DEFINITION. The memory family: READ_MEM and WRITE_MEM (`42_read_write_mem.md`). -/

namespace Sys2Proof.Machine

/-- `READ_MEM dst_reg, addr_reg` (R115): `x[dst_reg] <- M[x[addr_reg]]; pc <- pc + 1`, the address taken before the
register is written; an abort out of bounds, before anything is written. -/
def execReadMem (dstReg addrReg : RegIndex) (s : State) : Host.Outcome State Fault Refusal :=
  match s.memRead (registerAddress s addrReg) with
  | .ok v => .next (s.setReg dstReg v).retire
  | .error e => .next (s.abort e)

/-- `WRITE_MEM src_reg, addr_reg` (R116): `M[x[addr_reg]] <- x[src_reg]; pc <- pc + 1`; an abort out of bounds, before
the write. -/
def execWriteMem (srcReg addrReg : RegIndex) (s : State) : Host.Outcome State Fault Refusal :=
  match s.memWrite (registerAddress s addrReg) (s.getReg srcReg) with
  | .ok t => .next t.retire
  | .error e => .next (s.abort e)

end Sys2Proof.Machine
end

