-- ==== Sys2Proof/Machine/Alu.lean ====
section
/-! DEFINITION. The ALU, a single shift-right-by-one unit (R126). -/

namespace Sys2Proof.Machine

/-- The shift unit: the logical right shift by one bit (R126). The bit shifted out is recorded nowhere (R16). -/
def shiftUnit (v : Word) : Word := v >>> 1

end Sys2Proof.Machine
end

