-- ==== Sys2Proof/Machine/ShiftRight.lean ====
section
/-! DEFINITION. The shift family: SHR (`43_shift_right.md`). -/

namespace Sys2Proof.Machine

/-- `SHR reg, address` (R125): `M[address] <- x[reg] >> 1; pc <- pc + 1`. The register is not written, and the old content
of the cell is not read (R165; notes/assumptions/15.md). The bounds check is always made (D8). -/
def execShiftRight (reg : RegIndex) (address : BitVec 30) (s : State) : Host.Outcome State Fault Refusal :=
  match s.memWrite (literalAddress address) (shiftUnit (s.getReg reg)) with
  | .ok t => .next t.retire
  | .error e => .next (s.abort e)

end Sys2Proof.Machine
end

