-- ==== Sys2Proof/Machine/Dispatch.lean ====
section
/-! DEFINITION. The instruction dispatcher (R92): it selects the operation by the kind of the instruction alone. -/

namespace Sys2Proof.Machine

def exec (i : Instr) (s : State) : Host.Outcome State Fault Refusal :=
  match i with
  | .loadConst reg value => Sys2Proof.Machine.execLoadConst reg value s
  | .readMem dstReg addrReg => Sys2Proof.Machine.execReadMem dstReg addrReg s
  | .writeMem srcReg addrReg => Sys2Proof.Machine.execWriteMem srcReg addrReg s
  | .shiftRight reg address => Sys2Proof.Machine.execShiftRight reg address s

end Sys2Proof.Machine
end

