-- ==== Sys2Proof/Machine/Load.lean ====
section
/-! DEFINITION. The load operation, which is also the reset (R90, R160). -/

namespace Sys2Proof.Machine

/-- `Load(B)` (R90), in any state. A stream that decodes makes the engine fresh; one that does not leaves
`LoadFailed(e)` with x, pc, P and M unspecified (R161, D10). -/
def State.load (s : State) (stream : List Byte) : State :=
  match decodeProgram s.cfg.tags stream with
  | .ok p => State.fresh s.cfg p
  | .error e => { Config.afterFailedLoad s stream with cfg := s.cfg, status := .loadFailed e }

/-- The program store with instruction `i` at index `pc`; below it the store is kept, and filled up with `i` where it is
shorter than that. -/
def placeInstr (p : List Instr) (pc : Nat) (i : Instr) : List Instr :=
  (p ++ List.replicate (pc + 1 - p.length) i).set pc i

/-- The state with the instruction at the head of `bytes` placed where the next step fetches it and the engine `Loaded`:
what the load of a stream that holds it does to the program store, with everything else kept. Bytes that do not decode
fail as that load would: `LoadFailed` (notes/assumptions/8.md). -/
def State.placeBytes (s : State) (bytes : List Byte) : State :=
  match decodeHead s.cfg.tags bytes with
  | none => s
  | some (.ok (i, _)) => { s with program := placeInstr s.program s.pc i, status := .loaded }
  | some (.error e) => { s with status := .loadFailed e }

end Sys2Proof.Machine
end

