-- ==== Sys2Proof/Machine/Step.lean ====
section
/-! DEFINITION. One step of the fetch-execute sequencer (R91). -/

namespace Sys2Proof.Machine

/-- `Step` (R91): enabled in `Loaded` only; fetch at pc, dispatch, and the advance of pc and the halt inside the
instruction's meaning (`State.retire`). In any other status it is refused (D19). -/
def step (s : State) : Host.Outcome State Fault Refusal :=
  match s.status with
  | .loaded =>
    match s.fetch with
    | some i => exec i s
    | none => .fault (.fetchOutsideProgram s.pc)
  | .halted => .refused (.stepNotEnabled .halted)
  | .loadFailed e => .refused (.stepNotEnabled (.loadFailed e))
  | .aborted e => .refused (.stepNotEnabled (.aborted e))

/-- The state with the table word's instruction stored where `step` fetches next: in the program store at pc, the engine
`Loaded` (notes/assumptions/8.md). -/
def State.withFetchWord (s : State) (nbits w : Nat) : State := s.placeBytes (tableBytes nbits w)

end Sys2Proof.Machine
end

