-- ==== Sys2Proof/WellFormed.lean ====
section
/-! DEFINITION. The Instruction Model's validity check (R66): a kind and raw operands become an instruction, or a
`ValidationError` names what is wrong. -/

namespace Sys2Proof

/-- What the Instruction Model is given to build an instruction from: a kind and its operands as plain numbers, of which
there may be too few, too many, or some too large. -/
structure Candidate where
  kind : Kind
  operands : List Nat
  deriving DecidableEq, Repr

/-- "Construction fails with a `ValidationError` carrying the offending field and value whenever an operand count or
range check fails" (R66). It never leaves the toolchain under this name (R133). -/
inductive ValidationError where
  /-- The operand count is not the kind's arity. DESIGN CHOICE (notes/assumptions/20.md): it carries the expected and the
  actual count. R66 has it carry "the offending field and value", but no field offends in a wrong count, and the spec names
  none. That the assembler's `ParseError` carries the two counts is the spec's own (R75). -/
  | arity (expected actual : Nat)
  /-- An operand is outside its range. -/
  | range (field : Field) (value : Nat)
  deriving DecidableEq, Repr

/-- The operand count of every kind (R7 ARITY; R75). -/
def arity : Nat := 2

/-- The legal values of a field are those below its bound (R66). -/
def Field.bound : Field → Nat
  | .reg => 32
  | .dstReg => 32
  | .srcReg => 32
  | .addrReg => 32
  | .value => 2 ^ 24
  | .address => 2 ^ 30

/-- The two operand fields of a kind, in the order of R66. -/
def Kind.fields : Kind → Field × Field
  | .loadConst => (.reg, .value)
  | .readMem => (.dstReg, .addrReg)
  | .writeMem => (.srcReg, .addrReg)
  | .shiftRight => (.reg, .address)

/-- The range check of a register operand (R66, R76): the index itself, never clamped, or an error naming it. -/
def checkReg (f : Field) (v : Nat) : Except ValidationError RegIndex :=
  if h : v < 32 then .ok ⟨v, h⟩ else .error (.range f v)

/-- The range check of an operand of `width` bits, the constant or the address (R66, R76): the value itself, never
clamped, or an error naming it. -/
def checkBits (f : Field) (width v : Nat) : Except ValidationError (BitVec width) :=
  if v < 2 ^ width then .ok (BitVec.ofNat width v) else .error (.range f v)

/-- The Instruction Model's constructor (R66): the count, then the ranges, as R77 orders the two for a line. DESIGN CHOICE
(notes/assumptions/19.md): where both operands are out of range the FIRST is reported. The spec does not say which; its
order of fields (D5) is for the load. What a wrong count reports is the model's choice too (notes/assumptions/20.md). -/
def Candidate.validate (c : Candidate) : Except ValidationError Instr :=
  match c.kind, c.operands with
  | .loadConst, [a, b] => do
    let r ← checkReg .reg a
    let v ← checkBits .value 24 b
    pure (.loadConst r v)
  | .readMem, [a, b] => do
    let d ← checkReg .dstReg a
    let r ← checkReg .addrReg b
    pure (.readMem d r)
  | .writeMem, [a, b] => do
    let r ← checkReg .srcReg a
    let d ← checkReg .addrReg b
    pure (.writeMem r d)
  | .shiftRight, [a, b] => do
    let r ← checkReg .reg a
    let m ← checkBits .address 30 b
    pure (.shiftRight r m)
  | _, ops => .error (.arity arity ops.length)

/-- A candidate is well formed when the Instruction Model accepts it (R66). -/
def Candidate.wellFormed (c : Candidate) : Bool :=
  match c.validate with
  | .ok _ => true
  | .error _ => false

/-- The kind and the raw operands of an instruction, in the order of R66. -/
def Instr.candidate : Instr → Candidate
  | .loadConst r v => ⟨.loadConst, [r.val, v.toNat]⟩
  | .readMem d r => ⟨.readMem, [d.val, r.val]⟩
  | .writeMem r d => ⟨.writeMem, [r.val, d.val]⟩
  | .shiftRight r a => ⟨.shiftRight, [r.val, a.toNat]⟩

end Sys2Proof
end

