-- ==== Sys2Proof/Machine/Assembler.lean ====
section
/-! DEFINITION. The assembler front-end (R70 to R82). It is SOFTWARE OUTSIDE CORE (R4): no operation of the machine calls
it. The spec gives its syntax, so it is modelled beside the machine (notes/assumptions/10.md, 11.md). Text is the list of
the characters that the UTF-8 input stands for. -/

namespace Sys2Proof

/-- Why a line is not an instruction (R133). Raised by the assembler only. -/
inductive ParseError where
  /-- "invalid argument": an operand token is malformed (R73). -/
  | invalidArgument
  /-- "unknown instruction": the mnemonic is not in the table (R74). -/
  | unknownInstruction
  /-- The operand count is not the kind's arity (R75). -/
  | arity (expected actual : Nat)
  /-- An operand is outside its range (R76). -/
  | range (field : Field) (value : Nat)
  deriving DecidableEq, Repr

/-- Whitespace within a line: space, tab and carriage return (D15). -/
def isBlankChar (c : Char) : Bool := c = ' ' || c = '\t' || c = '\r'

/-- Text without the whitespace around it. -/
def trimText (l : List Char) : List Char :=
  ((l.dropWhile isBlankChar).reverse.dropWhile isBlankChar).reverse

/-- Step 1 (R71): without the comment, everything from the first `;` on, and without the whitespace around the rest. -/
def stripLine (l : List Char) : List Char := trimText (l.takeWhile (· ≠ ';'))

/-- The tokens of a line, split on whitespace (R72). -/
def lineTokens (l : List Char) : List (List Char) :=
  (l.splitOnP isBlankChar).filter (· ≠ [])

/-- The operand tokens (R72): the remainder rejoined, split on commas, each trimmed. A remainder with no text gives
none (D15). -/
def operandTokens (remainder : List (List Char)) : List (List Char) :=
  match remainder with
  | [] => []
  | _ :: _ => (([' '].intercalate remainder).splitOnP (· = ',')).map trimText

/-- The value of a decimal digit. -/
def decDigit (c : Char) : Option Nat :=
  if '0' ≤ c ∧ c ≤ '9' then some (c.toNat - '0'.toNat) else none

/-- The value of a hexadecimal digit of either case (R73). -/
def hexDigit (c : Char) : Option Nat :=
  if '0' ≤ c ∧ c ≤ '9' then some (c.toNat - '0'.toNat)
  else if 'a' ≤ c ∧ c ≤ 'f' then some (c.toNat - 'a'.toNat + 10)
  else if 'A' ≤ c ∧ c ≤ 'F' then some (c.toNat - 'A'.toNat + 10)
  else none

/-- The number that digits stand for in a base, read on from `acc`; nothing if one of them is no digit. -/
def digitsFrom (digit : Char → Option Nat) (base : Nat) : Nat → List Char → Option Nat
  | acc, [] => some acc
  | acc, c :: rest =>
    match digit c with
    | some d => digitsFrom digit base (acc * base + d) rest
    | none => none

/-- Step 3 (R73): one or more decimal digits, or `0x` and one or more hexadecimal digits; any other token is malformed
(D15). -/
def parseInteger : List Char → Option Nat
  | [] => none
  | '0' :: 'x' :: c :: rest => digitsFrom hexDigit 16 0 (c :: rest)
  | c :: rest => digitsFrom decDigit 10 0 (c :: rest)

/-- The mnemonic of a kind, in upper case (R74). -/
def Kind.mnemonic : Kind → List Char
  | .loadConst => ['L', 'O', 'A', 'D', '_', 'C', 'O', 'N', 'S', 'T']
  | .readMem => ['R', 'E', 'A', 'D', '_', 'M', 'E', 'M']
  | .writeMem => ['W', 'R', 'I', 'T', 'E', '_', 'M', 'E', 'M']
  | .shiftRight => ['S', 'H', 'R']

/-- Step 4 (R74): the fixed mnemonic table, case-insensitive (R72). -/
def kindOfMnemonic (m : List Char) : Option Kind :=
  [Kind.loadConst, .readMem, .writeMem, .shiftRight].find? (fun k => k.mnemonic = m.map Char.toUpper)

/-- The assembler reports the Instruction Model's `ValidationError` as a `ParseError` (R66, R133). -/
def ValidationError.toParseError : ValidationError → ParseError
  | .arity expected actual => .arity expected actual
  | .range field value => .range field value

/-- Steps 3 to 6 on the tokens of a line, in that order (R77): operand syntax, mnemonic, operand count, ranges. Which of two
operands out of range is reported is the model's choice, made in `Candidate.validate` (notes/assumptions/19.md). -/
def assembleTokens (mnemonic : List Char) (operands : List (List Char)) : Except ParseError Instr :=
  match operands.mapM parseInteger with
  | none => .error .invalidArgument
  | some ns =>
    match kindOfMnemonic mnemonic with
    | none => .error .unknownInstruction
    | some k =>
      match Candidate.validate ⟨k, ns⟩ with
      | .ok i => .ok i
      | .error e => .error e.toParseError

/-- One line of input (R70): nothing, exactly one instruction, or a `ParseError`. -/
def assembleLine (line : List Char) : Except ParseError (Option Instr) :=
  match lineTokens (stripLine line) with
  | [] => .ok none
  | m :: remainder =>
    match assembleTokens m (operandTokens remainder) with
    | .ok i => .ok (some i)
    | .error e => .error e

/-- A bad line, as it is reported: its number, its text and the error (R78). -/
structure LineError where
  line : Nat
  text : List Char
  error : ParseError
  deriving DecidableEq, Repr

/-- The caller's choice after a bad line (R80). -/
inductive ErrorPolicy where
  | abortAtFirst
  | reportAll
  deriving DecidableEq, Repr

/-- The lines numbered on from `n`: the instructions they gave, in line order, and the bad lines. -/
def assembleLines (n : Nat) : List (List Char) → List Instr × List LineError
  | [] => ([], [])
  | l :: rest =>
    let (is, es) := assembleLines (n + 1) rest
    match assembleLine l with
    | .ok none => (is, es)
    | .ok (some i) => (i :: is, es)
    | .error e => (is, ⟨n, l, e⟩ :: es)

/-- The whole source (R78): lines numbered from 1 (D15). With a bad line there is no program, under either policy (R79,
R80; notes/assumptions/10.md); the policy says which bad lines are reported. -/
def assembleSource (policy : ErrorPolicy) (source : List Char) : Except (List LineError) (List Instr) :=
  match assembleLines 1 (source.splitOnP (· = '\n')), policy with
  | (is, []), _ => .ok is
  | (_, e :: _), .abortAtFirst => .error [e]
  | (_, e :: es), .reportAll => .error (e :: es)

/-- The binary of a source (R79): `encode_program` of the assembled program. -/
def assembleBinary (t : Tags) (policy : ErrorPolicy) (source : List Char) : Except (List LineError) (List Byte) :=
  match assembleSource policy source with
  | .ok p => .ok (encodeProgram t p)
  | .error es => .error es

/-- The operands of an instruction, in the order of R66. -/
def Instr.operands (i : Instr) : List Nat := i.candidate.operands

/-- The canonical text of an instruction (R82): the upper-case mnemonic, a space, and the operands in decimal with a comma
and a space between them. -/
def Instr.text (i : Instr) : List Char :=
  i.kind.mnemonic ++ ' ' :: [',', ' '].intercalate (i.operands.map (Nat.toDigits 10))

end Sys2Proof
end

