-- ==== Sys2Proof/Machine/Transactions.lean ====
section
/-! DEFINITION. The host interface: the six operations through which the host reaches the core, and no others (R163). -/

namespace Sys2Proof.Machine

/-- At most `n` steps, stopping where a step gives no next state. -/
def runSteps : Nat → State → State
  | 0, s => s
  | n + 1, s =>
    match step s with
    | .next t => runSteps n t
    | .fault _ => s
    | .refused _ => s

/-- `Run` (R95): step until no step is enabled. Each completed step raises pc by one, so N - pc steps are enough; outside
`Loaded` it does nothing. -/
def State.run (s : State) : State := runSteps (s.count - s.pc) s

/-- The status in which registers and memory may be read out: any but `LoadFailed` (R26, R45, R163). -/
def Status.readable : Status → Bool
  | .loaded => true
  | .halted => true
  | .aborted _ => true
  | .loadFailed _ => false

/-- `Snapshot` (R26): x[0] to x[31], in index order; a pure read. -/
def State.snapshot (s : State) : Except Refusal (Vector Word 32) :=
  if s.status.readable then .ok s.regs else .error (.readOutNotEnabled s.status)

/-- `Dump(start, end)` (R45): the pairs (a, M[a]) for start ≤ a < end, in rising address order; refused for a bad range.
A pure read. -/
def State.dump (s : State) (start stop : Nat) : Except Refusal (List (Nat × Word)) :=
  if s.status.readable then
    if start ≤ stop ∧ stop ≤ s.cfg.memSize then
      .ok ((List.range' start (stop - start)).map (fun a => (a, s.cell a)))
    else .error (.dumpRange start stop)
  else .error (.readOutNotEnabled s.status)

/-- A request of the host (R163). -/
inductive Request where
  | load (stream : List Byte)
  | step
  | run
  | status
  | snapshot
  | dump (start stop : Nat)
  deriving DecidableEq, Repr

/-- What the host is told (R163): a status, with its fault record if any; the registers; or the pairs of a dump. -/
inductive Response where
  | status (st : Status)
  | registers (x : Vector Word 32)
  | cells (pairs : List (Nat × Word))
  deriving DecidableEq, Repr

/-- What a request does (R163): the state after it and the result to the host, or the reason it stops. -/
def State.serve (s : State) : Request → Host.Outcome (State × Response) Fault Refusal
  | .load stream => .next (s.load stream, .status (s.load stream).status)
  | .step =>
    match Sys2Proof.Machine.step s with
    | .next t => .next (t, .status t.status)
    | .fault r => .fault r
    | .refused r => .refused r
  | .run => .next (s.run, .status s.run.status)
  | .status => .next (s, .status s.status)
  | .snapshot =>
    match s.snapshot with
    | .ok x => .next (s, .registers x)
    | .error r => .refused r
  | .dump start stop =>
    match s.dump start stop with
    | .ok pairs => .next (s, .cells pairs)
    | .error r => .refused r

end Sys2Proof.Machine
end

