-- ==== Sys2Proof/Safety.lean ====
section
/-! DEFINITION. What counts as a well-formed state, a reachable state and a completed run, in the terms claims use. -/

namespace Sys2Proof

/-- The cell address of the one memory access an instruction makes, if it makes one (R36, R99). -/
def Instr.accessAddress (i : Instr) (s : Machine.State) : Option Word :=
  match i with
  | .loadConst _ _ => none
  | .readMem _ addrReg => some (Machine.registerAddress s addrReg)
  | .writeMem _ addrReg => some (Machine.registerAddress s addrReg)
  | .shiftRight _ address => some (Machine.literalAddress address)

/-- The cell address an instruction stores to, if it stores (R99). -/
def Instr.storeAddress (i : Instr) (s : Machine.State) : Option Word :=
  match i with
  | .loadConst _ _ => none
  | .readMem _ _ => none
  | .writeMem _ addrReg => some (Machine.registerAddress s addrReg)
  | .shiftRight _ address => some (Machine.literalAddress address)

/-- The register an instruction writes, if it writes one (R12). -/
def Instr.destReg : Instr → Option RegIndex
  | .loadConst reg _ => some reg
  | .readMem dstReg _ => some dstReg
  | .writeMem _ _ => none
  | .shiftRight _ _ => none

/-- The registers an instruction reads (R12). -/
def Instr.readRegs : Instr → List RegIndex
  | .loadConst _ _ => []
  | .readMem _ addrReg => [addrReg]
  | .writeMem srcReg addrReg => [srcReg, addrReg]
  | .shiftRight reg _ => [reg]

/-- The instruction completes in a state: the access it makes, if any, is to an allocated cell (R132). -/
def Instr.completesIn (i : Instr) (s : Machine.State) : Bool := (i.accessAddress s).all (fun a => s.inBounds a)

end Sys2Proof

namespace Sys2Proof.Machine

/-- A status agrees with pc, N and MEM_SIZE: `Loaded` where pc < N, `Halted` where pc = N (R18), `Aborted` at the failing
instruction with an address that is not allocated (R132, R137). `LoadFailed` says nothing of them (D10). -/
def Status.fits (pc count memSize : Nat) : Status → Bool
  | .loaded => pc < count
  | .halted => pc = count
  | .aborted e => e.pc = pc ∧ pc < count ∧ memSize ≤ e.addr.toNat
  | .loadFailed _ => true

/-- The status of the state agrees with the rest of it. -/
abbrev State.coherent (s : State) : Prop := s.status.fits s.pc s.count s.cfg.memSize = true

/-- The memory is canonical and lists only allocated cells (R21, R37). -/
abbrev State.memOk (s : State) : Prop := s.mem.wf ∧ ∀ p ∈ s.mem, p.1 < s.cfg.memSize

/-- The well-formed states: legal parameters (R8), a coherent status, and, where they may be read, a well-formed memory.
After a failed load nothing is said of the unspecified pieces (D10). -/
abbrev State.wf (s : State) : Prop :=
  s.cfg.wf ∧ s.coherent ∧ (s.status.readable = true → s.memOk)

/-- Every register and every cell holds a value below 2^24, where they may be read (R127). -/
abbrev State.below24 (s : State) : Prop :=
  s.status.readable = true →
    (∀ r : RegIndex, (s.getReg r).toNat < 2 ^ 24) ∧ ∀ a : Nat, (s.cell a).toNat < 2 ^ 24

/-- The states an engine with parameters `c` can be in: those a load gives, and those steps lead to from them (R168).
The state a load starts from is any state with those parameters. -/
inductive Reachable (c : Config) : State → Prop where
  | load (s : State) (stream : List Byte) (h : s.cfg = c) : Reachable c (s.load stream)
  | step (s t : State) (hs : Reachable c s) (h : Sys2Proof.Machine.step s = .next t) : Reachable c t

/-- The run is complete: `Halted`, and nothing else (R140, R167). -/
abbrev State.completed (s : State) : Prop := s.status = .halted

end Sys2Proof.Machine
end

