-- ==== Sys2Proof/Certificates/Slice0/Obligations.lean ====
section
/-! DEFINITION. The statements for the provers. -/

open Sys2Proof Sys2Proof.Machine

/-! ### Encoding and decoding -/

/-- Words written out bit by bit from the formats of section 3 of `30_encoding.md`, with the REFERENCE tags 0x01 to 0x04 in
the tag byte, decode to the instructions they stand for. The tags are no values of the formats, which give TAG_LC and the
others only: they are the spec's decision D1 and the model's choice (notes/assumptions/1.md). -/
def Obligations.ReferenceWordsDecode : Prop :=
  decodeTableWord 40 0b00000001_00000101_00010010_00110100_01010110 = some (.loadConst 5 0x123456#24) ∧
  decodeTableWord 24 0b00000010_00000010_00000001 = some (.readMem 2 1) ∧
  decodeTableWord 24 0b00000011_00011110_00000011 = some (.writeMem 30 3) ∧
  decodeTableWord 48 0b00000100_00000111_00000001_00000010_00000011_00000100 = some (.shiftRight 7 16909060#30) ∧
  decodeTableWord 24 0b00000010_00100000_00000001 = none

/-- R57: the bytes of every instruction, field by field, the most significant byte first; the first address byte is at
most 0x3F; a program is the concatenation of its instructions. -/
def Obligations.EncodeWritesTheFormatBytes : Prop :=
  ∀ t : Tags,
    (∀ (reg : RegIndex) (value : BitVec 24),
      encode t (.loadConst reg value) =
        [t.loadConst, BitVec.ofNat 8 reg.val, value.extractLsb' 16 8, value.extractLsb' 8 8, value.extractLsb' 0 8]) ∧
    (∀ dst addr : RegIndex,
      encode t (.readMem dst addr) = [t.readMem, BitVec.ofNat 8 dst.val, BitVec.ofNat 8 addr.val]) ∧
    (∀ src addr : RegIndex,
      encode t (.writeMem src addr) = [t.writeMem, BitVec.ofNat 8 src.val, BitVec.ofNat 8 addr.val]) ∧
    (∀ (reg : RegIndex) (address : BitVec 30),
      encode t (.shiftRight reg address) =
        [t.shiftRight, BitVec.ofNat 8 reg.val, (address.setWidth 32).extractLsb' 24 8,
          (address.setWidth 32).extractLsb' 16 8, (address.setWidth 32).extractLsb' 8 8,
          (address.setWidth 32).extractLsb' 0 8] ∧
      ((address.setWidth 32).extractLsb' 24 8).toNat ≤ 0x3F) ∧
    encodeProgram t [] = [] ∧
    ∀ (i : Instr) (p : List Instr), encodeProgram t (i :: p) = encode t i ++ encodeProgram t p

/-- The round trip of one instruction, every operand at every value, at any offset and whatever follows it (the law R65
quotes). -/
def Obligations.DecodeInvertsEncode : Prop :=
  ∀ (t : Tags) (i : Instr) (offset : Nat) (suffix : List Byte), t.distinct →
    ∃ fields : List Byte, encode t i = t.ofKind i.kind :: fields ∧
      decodeOne t offset (t.ofKind i.kind) (fields ++ suffix) = .ok (i, (encode t i).length)

/-- The round trip of a program: a stream that `encode_program` gave decodes to the program. -/
def Obligations.DecodeProgramInvertsEncodeProgram : Prop :=
  ∀ (t : Tags) (p : List Instr), t.distinct → decodeProgram t (encodeProgram t p) = .ok p

/-- The converse round trip: a stream that decodes is the encoding of what it decodes to, so no bit of it is ignored. -/
def Obligations.DecodedStreamIsItsEncoding : Prop :=
  ∀ (t : Tags) (stream : List Byte) (p : List Instr), decodeProgram t stream = .ok p → encodeProgram t p = stream

/-- R51: the length depends on the kind alone (5, 3, 3, 6); the decoder consumes exactly it, and tells it from the first
byte. -/
def Obligations.LengthDependsOnTheKind : Prop :=
  ∀ t : Tags,
    (∀ (reg : RegIndex) (value : BitVec 24), (encode t (.loadConst reg value)).length = 5) ∧
    (∀ dst addr : RegIndex, (encode t (.readMem dst addr)).length = 3) ∧
    (∀ src addr : RegIndex, (encode t (.writeMem src addr)).length = 3) ∧
    (∀ (reg : RegIndex) (address : BitVec 30), (encode t (.shiftRight reg address)).length = 6) ∧
    (∀ (offset : Nat) (tag : Byte) (rest : List Byte) (i : Instr) (width : Nat),
      decodeOne t offset tag rest = .ok (i, width) →
        tag = t.ofKind i.kind ∧ width = (encode t i).length ∧ width ≤ rest.length + 1) ∧
    ∀ (o o' : Nat) (tag : Byte) (rest rest' : List Byte) (i i' : Instr) (w w' : Nat),
      decodeOne t o tag rest = .ok (i, w) → decodeOne t o' tag rest' = .ok (i', w') → w = w'

/-- R60: a byte that is none of the four tags, where a tag is expected, fails the load with reason UnknownTag, and nothing
runs; with the reference tags these are the bytes 0x00 and 0x05 to 0xFF; the same value inside a field is no tag. -/
def Obligations.UnknownTagFailsTheLoad : Prop :=
  (∀ (s : State) (p : List Instr) (b : Byte) (rest : List Byte), s.cfg.tags.distinct →
    (∀ k : Kind, b ≠ s.cfg.tags.ofKind k) →
      ∃ offset tag,
        (s.load (encodeProgram s.cfg.tags p ++ b :: rest)).status = .loadFailed (.unknownTag offset tag) ∧
        step (s.load (encodeProgram s.cfg.tags p ++ b :: rest)) =
          .refused (.stepNotEnabled (.loadFailed (.unknownTag offset tag)))) ∧
  (∀ b : Byte, (∀ k : Kind, b ≠ referenceTags.ofKind k) ↔ b = 0x00#8 ∨ 0x05 ≤ b.toNat) ∧
  decodeProgram referenceTags [0x01#8, 0x05#8, 0x00#8, 0x00#8, 0x07#8] = .ok [.loadConst 5 7#24]

/-- R61: a stream that ends in the middle of an instruction fails the load with reason Truncated, whatever the bytes of
its fields are, so that no instruction is ever made from partial fields. -/
def Obligations.TruncatedStreamFailsTheLoad : Prop :=
  ∀ (s : State) (p : List Instr) (k : Kind) (fields : List Byte), s.cfg.tags.distinct →
    fields.length + 1 < k.length →
      ∃ offset tag need remaining,
        (s.load (encodeProgram s.cfg.tags p ++ s.cfg.tags.ofKind k :: fields)).status =
          .loadFailed (.truncated offset tag need remaining)

/-- The range check at decode, with the record it raises: register before address, first operand before second. The check
(D4), its order (D5) and the record (D6) are the spec's own decisions. -/
def Obligations.OutOfRangeFieldFailsToDecode : Prop :=
  ∀ (t : Tags) (o : Nat) (b1 b2 b3 b4 b5 : Byte) (rest : List Byte), t.distinct →
    (32 ≤ b1.toNat →
      decodeOne t o t.loadConst (b1 :: b2 :: b3 :: b4 :: rest) = .error (.fieldOutOfRange o .reg b1.toNat) ∧
      decodeOne t o t.readMem (b1 :: b2 :: rest) = .error (.fieldOutOfRange o .dstReg b1.toNat) ∧
      decodeOne t o t.writeMem (b1 :: b2 :: rest) = .error (.fieldOutOfRange o .srcReg b1.toNat) ∧
      decodeOne t o t.shiftRight (b1 :: b2 :: b3 :: b4 :: b5 :: rest) = .error (.fieldOutOfRange o .reg b1.toNat)) ∧
    (b1.toNat < 32 → 32 ≤ b2.toNat →
      decodeOne t o t.readMem (b1 :: b2 :: rest) = .error (.fieldOutOfRange o .addrReg b2.toNat) ∧
      decodeOne t o t.writeMem (b1 :: b2 :: rest) = .error (.fieldOutOfRange o .addrReg b2.toNat)) ∧
    (b1.toNat < 32 → 2 ^ 30 ≤ b2.toNat * 16777216 + b3.toNat * 65536 + b4.toNat * 256 + b5.toNat →
      decodeOne t o t.shiftRight (b1 :: b2 :: b3 :: b4 :: b5 :: rest) =
        .error (.fieldOutOfRange o .address
          (b2.toNat * 16777216 + b3.toNat * 65536 + b4.toNat * 256 + b5.toNat)))

/-- What a `DecodeError` of the other two reasons carries, for one instruction at any offset: the offset of the tag byte,
the tag, and for a truncation the length needed and the bytes there are. The record is the spec's own decision (D6). -/
def Obligations.DecodeErrorsCarryTheirRecord : Prop :=
  ∀ (t : Tags) (o : Nat) (b : Byte) (rest : List Byte), t.distinct →
    ((∀ k : Kind, b ≠ t.ofKind k) → decodeOne t o b rest = .error (.unknownTag o b)) ∧
    ∀ k : Kind, b = t.ofKind k → rest.length + 1 < k.length →
      decodeOne t o b rest = .error (.truncated o b k.length (rest.length + 1))

/-- The first error met in stream order is the one the load reports, at the offset where its instruction starts, and no
partial program is kept (D5 for the order). -/
def Obligations.FirstErrorStopsTheLoad : Prop :=
  ∀ (s : State) (p : List Instr) (b : Byte) (rest : List Byte) (e : DecodeError), s.cfg.tags.distinct →
    decodeOne s.cfg.tags (encodeProgram s.cfg.tags p).length b rest = .error e →
      decodeProgram s.cfg.tags (encodeProgram s.cfg.tags p ++ b :: rest) = .error e ∧
      (s.load (encodeProgram s.cfg.tags p ++ b :: rest)).status = .loadFailed e

/-- The Instruction Model accepts exactly the candidates with two operands inside the ranges of the table of R66, gives
them back unchanged, and otherwise names the count, or an offending field with its value. Where both operands are out of
range it names the first: that is the model's choice (notes/assumptions/19.md), since R66 does not order them. That a wrong count, checked
first, carries the expected and the actual count is the model's choice (notes/assumptions/20.md): R66 names no field for it. -/
def Obligations.ValidationAcceptsExactlyTheRanges : Prop :=
  ∀ c : Candidate,
    ((∃ i : Instr, c.validate = .ok i) ↔
      ∃ a b : Nat, c.operands = [a, b] ∧ a < c.kind.fields.1.bound ∧ b < c.kind.fields.2.bound) ∧
    (∀ i : Instr, c.validate = .ok i → i.candidate = c) ∧
    (c.operands.length ≠ 2 → c.validate = .error (.arity 2 c.operands.length)) ∧
    (∀ a b : Nat, c.operands = [a, b] → c.kind.fields.1.bound ≤ a →
      c.validate = .error (.range c.kind.fields.1 a)) ∧
    (∀ a b : Nat, c.operands = [a, b] → a < c.kind.fields.1.bound → c.kind.fields.2.bound ≤ b →
      c.validate = .error (.range c.kind.fields.2 b))

/-! ### The assembler -/

/-- The canonical text of every instruction assembles back to the instruction. The form of the text is the spec's own
decision (D16). -/
def Obligations.CanonicalTextAssembles : Prop :=
  ∀ i : Instr, assembleLine i.text = .ok (some i)

/-- R75: a line whose operand count is not the arity fails with a `ParseError` naming the expected and the actual count,
for every mnemonic. The count is checked after the operands' syntax and the mnemonic (R77), so the hypotheses say that
those two checks pass. -/
def Obligations.WrongOperandCountIsReported : Prop :=
  ∀ (line mnemonic : List Char) (remainder : List (List Char)) (k : Kind) (ns : List Nat),
    lineTokens (stripLine line) = mnemonic :: remainder → kindOfMnemonic mnemonic = some k →
    (operandTokens remainder).mapM parseInteger = some ns → (operandTokens remainder).length ≠ 2 →
      assembleLine line = .error (.arity 2 (operandTokens remainder).length)

/-- The range check of a line's operands: out of range is a `ParseError` naming the field and the value; in range, the
instruction holds the very numbers of the line, none clamped (R76). Where both operands are out of range the first is
named: that is the model's choice (notes/assumptions/19.md), since R76 does not order them and R77 orders only the steps. -/
def Obligations.OperandRangesAreChecked : Prop :=
  ∀ (line mnemonic : List Char) (remainder : List (List Char)) (k : Kind) (a b : Nat),
    lineTokens (stripLine line) = mnemonic :: remainder → kindOfMnemonic mnemonic = some k →
    (operandTokens remainder).mapM parseInteger = some [a, b] →
      (k.fields.1.bound ≤ a → assembleLine line = .error (.range k.fields.1 a)) ∧
      (a < k.fields.1.bound → k.fields.2.bound ≤ b → assembleLine line = .error (.range k.fields.2 b)) ∧
      (a < k.fields.1.bound → b < k.fields.2.bound →
        ∃ i : Instr, assembleLine line = .ok (some i) ∧ i.candidate = ⟨k, [a, b]⟩)

/-! ### Memory and the shift unit -/

/-- R34: `MemRead` fails at or above MEM_SIZE with the pc and the full address, and else gives the cell. -/
def Obligations.MemReadChecksThenReads : Prop :=
  ∀ (s : State) (a : Word),
    (s.cfg.memSize ≤ a.toNat → s.memRead a = .error ⟨s.pc, a⟩) ∧
    (a.toNat < s.cfg.memSize → s.memRead a = .ok (s.cell a.toNat))

/-- R35: `MemWrite` fails at or above MEM_SIZE and changes no cell; else it changes exactly one cell, all 32 bits of it,
and nothing else of the state. -/
def Obligations.MemWriteChecksThenWritesOneCell : Prop :=
  ∀ (s : State) (a v : Word),
    (s.cfg.memSize ≤ a.toNat → s.memWrite a v = .error ⟨s.pc, a⟩) ∧
    (a.toNat < s.cfg.memSize →
      ∃ t, s.memWrite a v = .ok t ∧ t.cell a.toNat = v ∧ (∀ b : Nat, b ≠ a.toNat → t.cell b = s.cell b) ∧
        t.cfg = s.cfg ∧ t.regs = s.regs ∧ t.pc = s.pc ∧ t.program = s.program ∧ t.status = s.status)

/-- The canonical form is one form: two canonical memories that read alike everywhere are equal data (the model's own
form of memory, notes/assumptions/5.md). -/
def Obligations.CanonicalMemoriesThatReadAlikeAreEqual : Prop :=
  ∀ m m' : Memory, m.wf → m'.wf → (∀ a : Nat, m.read a = m'.read a) → m = m'

/-- R126: the shift unit halves; bits 30:0 are the input's bits 31:1 and bit 31 is 0; the result is at most 2^31 - 1 and
below the input unless the input is 0. -/
def Obligations.ShiftUnitHalves : Prop :=
  ∀ v : Word,
    (shiftUnit v).toNat = v.toNat / 2 ∧
    (∀ k : Nat, k < 31 → (shiftUnit v).getLsbD k = v.getLsbD (k + 1)) ∧
    (shiftUnit v).getLsbD 31 = false ∧
    (shiftUnit v).toNat ≤ 2 ^ 31 - 1 ∧ (shiftUnit v).toNat ≤ v.toNat ∧
    ((shiftUnit v).toNat = v.toNat ↔ v = 0#32)

/-! ### Load and reset -/

/-- What `State.reset` holds: the values of R24 with the empty program, so `Halted`. That reset is the load of the empty
stream is the model's choice (notes/assumptions/2.md), and the parameters are the reference values (log 1). -/
def Obligations.ResetHoldsTheValuesOfALoad : Prop :=
  (∀ r : RegIndex, State.reset.getReg r = 0#32) ∧ (∀ a : Nat, State.reset.cell a = 0#32) ∧ State.reset.pc = 0 ∧
    State.reset.program = [] ∧ State.reset.status = .halted ∧ State.reset.cfg = referenceConfig

/-- R160: a load that succeeds is a full reset. All registers and cells are 0, pc is 0, the program is replaced and the
fault record cleared, and nothing survives: the state after it does not depend on the state before it. -/
def Obligations.SuccessfulLoadIsAFullReset : Prop :=
  ∀ (s s' : State) (stream : List Byte) (p : List Instr), s'.cfg = s.cfg →
    decodeProgram s.cfg.tags stream = .ok p →
      (∀ r : RegIndex, (s.load stream).getReg r = 0#32) ∧ (∀ a : Nat, (s.load stream).cell a = 0#32) ∧
      (s.load stream).pc = 0 ∧ (s.load stream).program = p ∧
      (∀ e, (s.load stream).status ≠ .loadFailed e) ∧ (∀ e, (s.load stream).status ≠ .aborted e) ∧
      s'.load stream = s.load stream

/-- The status a successful load leaves: `Halted` for the empty program (the spec's decision D14), else `Loaded`. -/
def Obligations.LoadSetsTheStatus : Prop :=
  ∀ (s : State) (stream : List Byte) (p : List Instr), decodeProgram s.cfg.tags stream = .ok p →
    ((s.load stream).status = .halted ↔ p = []) ∧ ((s.load stream).status = .loaded ↔ p ≠ []) ∧
    (s.load []).status = .halted

/-- A load that fails: the status holds the error, and nothing can be run or read (the spec's decisions D10 and D19). -/
def Obligations.FailedLoadCanNeitherRunNorBeRead : Prop :=
  ∀ (s : State) (stream : List Byte) (e : DecodeError), decodeProgram s.cfg.tags stream = .error e →
    (s.load stream).status = .loadFailed e ∧ (s.load stream).cfg = s.cfg ∧
    step (s.load stream) = .refused (.stepNotEnabled (.loadFailed e)) ∧ (s.load stream).run = s.load stream ∧
    (s.load stream).snapshot = .error (.readOutNotEnabled (.loadFailed e)) ∧
    ∀ start stop : Nat, (s.load stream).dump start stop = .error (.readOutNotEnabled (.loadFailed e))

/-! ### The four instructions -/

/-- R110, whole: LOAD_CONST runs in every state. The register holds the constant zero-extended; every other register,
every cell, the program and the parameters are unchanged; pc advances by one; its bytes; and the operands that are no
LOAD_CONST. -/
def Obligations.LoadConstResult : Prop :=
  (∀ (reg : RegIndex) (value : BitVec 24) (s : State),
    ∃ t, exec (.loadConst reg value) s = .next t ∧
      t.getReg reg = value.setWidth 32 ∧ (t.getReg reg).toNat = value.toNat ∧
      (∀ k : Nat, 24 ≤ k → (t.getReg reg).getLsbD k = false) ∧
      (∀ r : RegIndex, r ≠ reg → t.getReg r = s.getReg r) ∧ (∀ a : Nat, t.cell a = s.cell a) ∧
      t.pc = s.pc + 1 ∧ t.program = s.program ∧ t.cfg = s.cfg ∧
      t.status = if s.pc + 1 = s.program.length then .halted else s.status) ∧
  (∀ (t : Tags) (reg : RegIndex) (value : BitVec 24),
    encode t (.loadConst reg value) =
      [t.loadConst, BitVec.ofNat 8 reg.val, value.extractLsb' 16 8, value.extractLsb' 8 8, value.extractLsb' 0 8]) ∧
  ∀ a b : Nat, (31 < a ∨ 16777215 < b) → ∀ i : Instr, Candidate.validate ⟨.loadConst, [a, b]⟩ ≠ .ok i

/-- READ_MEM with an allocated address (R115, its half that completes): the destination holds the cell whose address the
address register held before, also where the two registers are one; nothing else changes but pc and the halt. -/
def Obligations.ReadMemResult : Prop :=
  ∀ (dst addr : RegIndex) (s : State), (registerAddress s addr).toNat < s.cfg.memSize →
    ∃ t, exec (.readMem dst addr) s = .next t ∧
      t.getReg dst = s.cell (s.getReg addr).toNat ∧
      (∀ r : RegIndex, r ≠ dst → t.getReg r = s.getReg r) ∧ (∀ a : Nat, t.cell a = s.cell a) ∧
      t.pc = s.pc + 1 ∧ t.program = s.program ∧ t.cfg = s.cfg ∧
      t.status = if s.pc + 1 = s.program.length then .halted else s.status

/-- WRITE_MEM with an allocated address (R116, its half that completes): the cell the address register names holds the
source register, every other cell and every register is unchanged. -/
def Obligations.WriteMemResult : Prop :=
  ∀ (src addr : RegIndex) (s : State), (registerAddress s addr).toNat < s.cfg.memSize →
    ∃ t, exec (.writeMem src addr) s = .next t ∧
      t.cell (registerAddress s addr).toNat = s.getReg src ∧
      (∀ a : Nat, a ≠ (registerAddress s addr).toNat → t.cell a = s.cell a) ∧
      (∀ r : RegIndex, t.getReg r = s.getReg r) ∧
      t.pc = s.pc + 1 ∧ t.program = s.program ∧ t.cfg = s.cfg ∧
      t.status = if s.pc + 1 = s.program.length then .halted else s.status

/-- SHR with an allocated address (R125, its half that completes): the cell the literal names holds half the register;
every other cell and EVERY register, the source too, is unchanged. -/
def Obligations.ShiftRightResult : Prop :=
  ∀ (reg : RegIndex) (address : BitVec 30) (s : State), (literalAddress address).toNat < s.cfg.memSize →
    (literalAddress address).toNat = address.toNat ∧
    ∃ t, exec (.shiftRight reg address) s = .next t ∧
      (t.cell (literalAddress address).toNat).toNat = (s.getReg reg).toNat / 2 ∧
      (∀ a : Nat, a ≠ (literalAddress address).toNat → t.cell a = s.cell a) ∧
      (∀ r : RegIndex, t.getReg r = s.getReg r) ∧
      t.pc = s.pc + 1 ∧ t.program = s.program ∧ t.cfg = s.cfg ∧
      t.status = if s.pc + 1 = s.program.length then .halted else s.status

/-- The abort of READ_MEM, WRITE_MEM and SHR: with an address at or above MEM_SIZE only the status changes, to `Aborted`
with the pc of the instruction and the address it used; and LOAD_CONST never aborts. That the error is a status of the
machine is the spec's decision D7 (log 4), that SHR checks too its decision D8. -/
def Obligations.OutOfBoundsAbortsAndChangesNothingElse : Prop :=
  (∀ (dst addr : RegIndex) (s : State), s.cfg.memSize ≤ (s.getReg addr).toNat →
    exec (.readMem dst addr) s = .next { s with status := .aborted ⟨s.pc, s.getReg addr⟩ }) ∧
  (∀ (src addr : RegIndex) (s : State), s.cfg.memSize ≤ (s.getReg addr).toNat →
    exec (.writeMem src addr) s = .next { s with status := .aborted ⟨s.pc, s.getReg addr⟩ }) ∧
  (∀ (reg : RegIndex) (address : BitVec 30) (s : State), s.cfg.memSize ≤ address.toNat →
    exec (.shiftRight reg address) s = .next { s with status := .aborted ⟨s.pc, address.setWidth 32⟩ }) ∧
  ∀ (reg : RegIndex) (value : BitVec 24) (s t : State) (e : OutOfBounds),
    exec (.loadConst reg value) s = .next t → t.status = .aborted e → s.status = .aborted e

/-- R165: SHR never reads the cell it writes. The old content of the cell does not enter the result, and the same SHR run
again stores the same value again. -/
def Obligations.RepeatedShiftDoesNotAccumulate : Prop :=
  ∀ (reg : RegIndex) (address : BitVec 30) (s : State) (old : Word), (literalAddress address).toNat < s.cfg.memSize →
    ∃ t t' u, exec (.shiftRight reg address) s = .next t ∧
      exec (.shiftRight reg address) (s.setCell (literalAddress address).toNat old) = .next t' ∧
      exec (.shiftRight reg address) t = .next u ∧
      (∀ a : Nat, t'.cell a = t.cell a) ∧ (∀ a : Nat, u.cell a = t.cell a)

/-- What every instruction leaves unchanged in every state: the parameters, the program, every register but the one R12
lists as written, every cell but the one stored to. -/
def Obligations.EveryInstructionHasItsFrame : Prop :=
  ∀ (i : Instr) (s : State),
    ∃ t, exec i s = .next t ∧ t.cfg = s.cfg ∧ t.program = s.program ∧
      (∀ r : RegIndex, i.destReg ≠ some r → t.getReg r = s.getReg r) ∧
      ∀ a : Nat, (∀ w : Word, i.storeAddress s = some w → a ≠ w.toNat) → t.cell a = s.cell a

/-- Only the registers R12 lists as read can enter what an instruction does: two states that agree on everything but the
other registers get the same memory, pc, status and written register. -/
def Obligations.OnlyTheListedRegistersAreRead : Prop :=
  ∀ (i : Instr) (s s' : State), s'.cfg = s.cfg → s'.pc = s.pc → s'.program = s.program → s'.mem = s.mem →
    s'.status = s.status → (∀ r ∈ i.readRegs, s'.getReg r = s.getReg r) →
      ∃ t t', exec i s = .next t ∧ exec i s' = .next t' ∧ t'.mem = t.mem ∧ t'.pc = t.pc ∧ t'.status = t.status ∧
        (i.completesIn s = true → ∀ r : RegIndex, i.destReg = some r → t'.getReg r = t.getReg r)

/-- R14 and R93: an instruction that completes advances pc by exactly one, whatever its kind; one that raises
`OutOfBoundsError` leaves pc; and no instruction reads pc: what it does to registers and memory is the same at any pc. -/
def Obligations.PcAdvancesByExactlyOne : Prop :=
  ∀ (i : Instr) (s : State) (k : Nat),
    (i.completesIn s = true → ∃ t, exec i s = .next t ∧ t.pc = s.pc + 1) ∧
    (i.completesIn s = false → ∃ t, exec i s = .next t ∧ t.pc = s.pc) ∧
    ∃ t t', exec i s = .next t ∧ exec i { s with pc := k } = .next t' ∧ t'.regs = t.regs ∧ t'.mem = t.mem

/-! ### The sequencer -/

/-- Step runs the instruction at pc: in `Loaded`, with an instruction at index pc of the program store, step is exec of it
at the same state (R91; the advance of pc and the halt stand inside exec). -/
def Obligations.StepRunsTheFetchedInstruction : Prop :=
  ∀ (s : State) (i : Instr), s.status = .loaded → s.program[s.pc]? = some i → step s = exec i s

/-- An instruction given as its bytes, placed where step fetches, is the one the next step runs, and placing it changes no
register, no cell, no parameter and not pc (the host's way in, notes/assumptions/8.md). -/
def Obligations.PlacedWordIsTheNextInstruction : Prop :=
  ∀ (s : State) (nbits w : Nat) (i : Instr), s.cfg.tags = referenceTags → decodeTableWord nbits w = some i →
    step (s.withFetchWord nbits w) = exec i (s.withFetchWord nbits w) ∧
    (s.withFetchWord nbits w).regs = s.regs ∧ (s.withFetchWord nbits w).mem = s.mem ∧
    (s.withFetchWord nbits w).pc = s.pc ∧ (s.withFetchWord nbits w).cfg = s.cfg

/-- Step is refused in every status but `Loaded` (R91; that it is refused is the spec's decision D19). -/
def Obligations.StepIsRefusedOutsideLoaded : Prop :=
  ∀ s : State, s.status ≠ .loaded → step s = .refused (.stepNotEnabled s.status) ∧ s.run = s

/-- R42: a store cannot change what is fetched. No request of the host but a load changes the program store, whatever the
instructions it runs store, nor the parameters. -/
def Obligations.OnlyALoadChangesTheProgram : Prop :=
  ∀ (s t : State) (q : Request) (a : Response), s.serve q = .next (t, a) →
    (∀ stream, q ≠ .load stream) → t.program = s.program ∧ t.cfg = s.cfg

/-- R94: in every state a run can reach, the engine is `Halted` exactly when pc = N and no error has occurred; in `Halted`
no step is enabled, and no request but a load changes the state. -/
def Obligations.HaltedExactlyAtTheEnd : Prop :=
  ∀ (c : Config) (s : State), Reachable c s →
    (s.status = .halted ↔ s.pc = s.count ∧ s.status.readable = true ∧ ∀ e, s.status ≠ .aborted e) ∧
    (s.status = .halted → step s = .refused (.stepNotEnabled .halted) ∧
      ∀ (t : State) (q : Request) (a : Response), s.serve q = .next (t, a) → (∀ stream, q ≠ .load stream) → t = s)

/-- A run from a well-formed `Loaded` state always ends: `Halted` with pc = N, or `Aborted` at an instruction of the
program from pc on (R95, whose bound on the number of steps is the spec's inference). -/
def Obligations.RunAlwaysEnds : Prop :=
  ∀ s : State, s.wf → s.status = .loaded →
    (s.run.status = .halted ∧ s.run.pc = s.count) ∨
    ∃ e, s.run.status = .aborted e ∧ e.pc = s.run.pc ∧ s.pc ≤ e.pc ∧ e.pc < s.count ∧ s.cfg.memSize ≤ e.addr.toNat

/-- The number of steps of a run that completes: exactly N - pc, each of them a step of the core (R166, the spec's
inference). -/
def Obligations.CompleteRunTakesOneStepAnInstruction : Prop :=
  ∀ s : State, s.wf → s.status = .loaded → s.run.completed →
    Sys2Proof.core.run (s.count - s.pc) s = .next s.run ∧
    ∀ k, k < s.count - s.pc →
      ∃ t : State, Sys2Proof.core.run k s = .next t ∧ t.status = .loaded ∧ t.pc = s.pc + k

/-- Aborts are precise (R138, the spec's inference): the instructions before the failing one have run completely, one step
each, and the failing one has had no effect but on the status. -/
def Obligations.AbortsArePrecise : Prop :=
  ∀ (s : State) (e : OutOfBounds), s.wf → s.status = .loaded → s.run.status = .aborted e →
    ∃ t : State, Sys2Proof.core.run (e.pc - s.pc) s = .next t ∧ t.status = .loaded ∧ t.pc = e.pc ∧
      s.run = { t with status := .aborted e } ∧ Sys2Proof.core.run (e.pc - s.pc + 1) s = .next s.run

/-- The same stream run on two engines with the same parameters, whatever they did before, ends in the same state (R96). -/
def Obligations.SameStreamRunsTheSame : Prop :=
  ∀ (s s' : State) (stream : List Byte) (p : List Instr), s'.cfg = s.cfg → decodeProgram s.cfg.tags stream = .ok p →
    (s'.load stream).run = (s.load stream).run

/-- No hazards (three cases of R164): a READ_MEM sees the cell that the WRITE_MEM or the SHR just before it wrote, and a
SHR sees the register that the LOAD_CONST just before it wrote. -/
def Obligations.NextInstructionSeesTheWrite : Prop :=
  ∀ s : State, s.status = .loaded →
    (∀ src addr dst : RegIndex, s.program[s.pc]? = some (.writeMem src addr) →
      s.program[s.pc + 1]? = some (.readMem dst addr) → (registerAddress s addr).toNat < s.cfg.memSize →
        ∃ t u, step s = .next t ∧ step t = .next u ∧ u.getReg dst = s.getReg src ∧ u.pc = s.pc + 2) ∧
    (∀ (reg addr dst : RegIndex) (address : BitVec 30), s.program[s.pc]? = some (.shiftRight reg address) →
      s.program[s.pc + 1]? = some (.readMem dst addr) → registerAddress s addr = literalAddress address →
      address.toNat < s.cfg.memSize →
        ∃ t u, step s = .next t ∧ step t = .next u ∧ u.getReg dst = shiftUnit (s.getReg reg) ∧ u.pc = s.pc + 2) ∧
    (∀ (reg : RegIndex) (value : BitVec 24) (address : BitVec 30), s.program[s.pc]? = some (.loadConst reg value) →
      s.program[s.pc + 1]? = some (.shiftRight reg address) → address.toNat < s.cfg.memSize →
        ∃ t u, step s = .next t ∧ step t = .next u ∧ (u.cell address.toNat).toNat = value.toNat / 2 ∧
          u.pc = s.pc + 2)

/-! ### The host's read-out -/

/-- The dump: for a good range, one pair for each address from start up to but not including end, in rising order, with
the cell's value; a bad range is refused; the state is unchanged. The half-open range and the refusal are the spec's
decision D11. -/
def Obligations.DumpListsTheCells : Prop :=
  ∀ (s : State) (start stop : Nat), s.status.readable = true →
    (start ≤ stop → stop ≤ s.cfg.memSize →
      ∃ pairs : List (Nat × Word), s.serve (.dump start stop) = .next (s, .cells pairs) ∧
        pairs.length = stop - start ∧
        ∀ k : Nat, k < stop - start → pairs[k]? = some (start + k, s.cell (start + k))) ∧
    ((stop < start ∨ s.cfg.memSize < stop) → s.serve (.dump start stop) = .refused (.dumpRange start stop))

/-! ### Invariants -/

/-- Every step keeps a state well formed: legal parameters, a status that agrees with pc, N and MEM_SIZE, and a canonical
memory of allocated cells. -/
def Obligations.StepKeepsWellFormed : Prop :=
  ∀ s t : State, s.wf → step s = .next t → t.wf

/-- Every request of the host keeps a state well formed, a load of any stream and a whole run among them. -/
def Obligations.EveryRequestKeepsWellFormed : Prop :=
  ∀ (s t : State) (q : Request) (a : Response), s.wf → s.serve q = .next (t, a) → t.wf

/-- The reset state is well formed (the model's reset state, notes/assumptions/2.md). -/
def Obligations.ResetIsWellFormed : Prop := State.reset.wf

/-- A step from a well-formed state never faults: the fetch cannot fail (R91). -/
def Obligations.StepNeverFaultsWhenWellFormed : Prop :=
  ∀ (s : State) (r : Fault), s.wf → step s ≠ .fault r

/-- The value bound (R127, the spec's inference): every step keeps every register and every cell below 2^24. -/
def Obligations.StepKeepsValuesBelow24Bits : Prop :=
  ∀ s t : State, s.below24 → step s = .next t → t.below24

/-- The value bound holds after a load, where registers and cells may be read, so after every load that succeeds (R127, the
spec's inference); of a load that fails, whose contents are unspecified (D10), it says nothing. It holds at the model's
reset state (notes/assumptions/2.md). -/
def Obligations.LoadLeavesValuesBelow24Bits : Prop :=
  (∀ (s : State) (stream : List Byte), (s.load stream).below24) ∧ State.reset.below24

/-- With at least 2^30 cells no run of any program can raise `OutOfBoundsError` (R127, the spec's inference). -/
def Obligations.NoAbortWithFullMemory : Prop :=
  ∀ (c : Config) (s : State), 2 ^ 30 ≤ c.memSize → Reachable c s → ∀ e : OutOfBounds, s.status ≠ .aborted e

/-- The cells from 2^24 up can be written only by SHR (R127, the spec's inference). -/
def Obligations.HighCellsAreWrittenOnlyByShr : Prop :=
  ∀ (s t : State) (a : Nat), s.below24 → step s = .next t → 2 ^ 24 ≤ a → t.cell a ≠ s.cell a →
    ∃ (reg : RegIndex) (address : BitVec 30), s.program[s.pc]? = some (.shiftRight reg address) ∧ address.toNat = a

/-! ### The host's read-out of the registers -/

/-- The snapshot is enabled in `Loaded`, `Halted` and `Aborted`: it answers x[0] to x[31] in index order and leaves the whole
state unchanged. That it may be taken between steps and after an abort is the spec's decision D9 (notes/assumptions/13.md);
its refusal in `LoadFailed` is in `FailedLoadCanNeitherRunNorBeRead`. -/
def Obligations.SnapshotGivesTheRegisters : Prop :=
  ∀ s : State, (s.status = .loaded ∨ s.status = .halted ∨ ∃ e, s.status = .aborted e) →
    ∃ x : Vector Word 32, s.serve .snapshot = .next (s, .registers x) ∧ ∀ r : RegIndex, x[r.val] = s.getReg r
end

