-- ==== Sys2Proof/Laws/Decode.lean ====
section
/-! SUPPORT. What the decoder can answer, said once, and how the scan moves over an instruction. -/

namespace Sys2Proof

theorem regField_ok {o : Nat} {f : Field} {b : Byte} {r : RegIndex} (h : regField o f b = .ok r) :
    b = byteOf r.val 0 := by
  unfold regField at h
  split at h
  · cases h
    simp [byteOf]
  · cases h

theorem regField_byteOf (o : Nat) (f : Field) (r : RegIndex) : regField o f (byteOf r.val 0) = .ok r := by
  have hr := r.isLt
  have : r.val % 256 = r.val := Nat.mod_eq_of_lt (by omega)
  simp [regField, byteOf, this]

theorem beNat_three (b2 b1 b0 : Byte) : beNat [b2, b1, b0] = b2.toNat * 65536 + b1.toNat * 256 + b0.toNat := by
  simp only [beNat, List.foldl]; omega

theorem beNat_four (b3 b2 b1 b0 : Byte) :
    beNat [b3, b2, b1, b0] = b3.toNat * 16777216 + b2.toNat * 65536 + b1.toNat * 256 + b0.toNat := by
  simp only [beNat, List.foldl]; omega

/-- Everything `decodeOne` can answer when it does not fail: the tag is the tag of the kind, the width is the length of
the kind, and the tag and the bytes after it begin with the encoding. -/
theorem decodeOne_ok {t : Tags} {o : Nat} {tag : Byte} {rest : List Byte} {i : Instr} {w : Nat}
    (h : decodeOne t o tag rest = .ok (i, w)) :
    tag = t.ofKind i.kind ∧ w = i.kind.length ∧ ∃ suffix, tag :: rest = encode t i ++ suffix := by
  unfold decodeOne at h
  split at h
  · rename_i ht
    split at h
    · rename_i b1 b2 b3 b4 suffix
      cases hr : regField o .reg b1 with
      | error e => simp [hr, bind, Except.bind] at h
      | ok r =>
        simp only [hr, bind, Except.bind, pure, Except.pure, Except.ok.injEq, Prod.mk.injEq] at h
        obtain ⟨rfl, rfl⟩ := h
        refine ⟨ht, rfl, suffix, ?_⟩
        have h2 := b2.isLt; have h3 := b3.isLt; have h4 := b4.isLt
        simp only [encode, constField, beNat_three, regField_ok hr, ht, List.cons_append, List.nil_append]
        congr 2
        simp only [byteOf, ← BitVec.toNat_inj, List.cons.injEq, BitVec.toNat_ofNat]
        refine ⟨?_, ?_, ?_, trivial⟩ <;> omega
    · cases h
  · split at h
    · rename_i ht
      split at h
      · rename_i b1 b2 suffix
        cases hd : regField o .dstReg b1 with
        | error e => simp [hd, bind, Except.bind] at h
        | ok d =>
          cases ha : regField o .addrReg b2 with
          | error e => simp [hd, ha, bind, Except.bind] at h
          | ok a =>
            simp only [hd, ha, bind, Except.bind, pure, Except.pure, Except.ok.injEq, Prod.mk.injEq] at h
            obtain ⟨rfl, rfl⟩ := h
            exact ⟨ht, rfl, suffix, by simp [encode, regField_ok hd, regField_ok ha, ht]⟩
      · cases h
    · split at h
      · rename_i ht
        split at h
        · rename_i b1 b2 suffix
          cases hd : regField o .srcReg b1 with
          | error e => simp [hd, bind, Except.bind] at h
          | ok d =>
            cases ha : regField o .addrReg b2 with
            | error e => simp [hd, ha, bind, Except.bind] at h
            | ok a =>
              simp only [hd, ha, bind, Except.bind, pure, Except.pure, Except.ok.injEq, Prod.mk.injEq] at h
              obtain ⟨rfl, rfl⟩ := h
              exact ⟨ht, rfl, suffix, by simp [encode, regField_ok hd, regField_ok ha, ht]⟩
        · cases h
      · split at h
        · rename_i ht
          split at h
          · rename_i b1 b2 b3 b4 b5 suffix
            cases hr : regField o .reg b1 with
            | error e => simp [hr, bind, Except.bind] at h
            | ok r =>
              by_cases hle : beNat [b2, b3, b4, b5] ≤ 1073741823
              · simp only [hr, addressField, hle, if_true, bind, Except.bind, pure, Except.pure, Except.ok.injEq,
                  Prod.mk.injEq] at h
                obtain ⟨rfl, rfl⟩ := h
                refine ⟨ht, rfl, suffix, ?_⟩
                rw [beNat_four] at hle
                have h2 := b2.isLt; have h3 := b3.isLt; have h4 := b4.isLt; have h5 := b5.isLt
                simp only [encode, beNat_four, regField_ok hr, ht, List.cons_append, List.nil_append]
                congr 2
                simp only [byteOf, ← BitVec.toNat_inj, List.cons.injEq, BitVec.toNat_ofNat]
                refine ⟨?_, ?_, ?_, ?_, trivial⟩ <;> omega
              · simp [hr, addressField, hle, bind, Except.bind] at h
          · cases h
        · cases h

/-- Skipping bytes that are there is moving past them. -/
theorem decodeFrom_skip (t : Tags) (o k : Nat) (bytes : List Byte) (h : k ≤ bytes.length) :
    decodeFrom t o k bytes = decodeFrom t (o + k) 0 (bytes.drop k) := by
  induction k generalizing o bytes with
  | zero => simp
  | succ k ih =>
    cases bytes with
    | nil => simp at h
    | cons b rest =>
      have := ih (o + 1) rest (by simpa using h)
      simp only [decodeFrom, List.drop_succ_cons]
      rw [this, show o + 1 + k = o + (k + 1) by omega]

@[simp] theorem encode_length (t : Tags) (i : Instr) : (encode t i).length = i.kind.length := by
  cases i <;> rfl

/-- The scan passes over an instruction that decodes, and goes on behind it. -/
theorem decodeFrom_cons {t : Tags} {o : Nat} {b : Byte} {rest : List Byte} {i : Instr} {w : Nat}
    (h : decodeOne t o b rest = .ok (i, w)) :
    decodeFrom t o 0 (b :: rest) =
      (decodeFrom t (o + w) 0 ((b :: rest).drop w)).bind (fun is => .ok (i :: is)) := by
  obtain ⟨-, hw, suffix, hs⟩ := decodeOne_ok h
  have hl := congrArg List.length hs
  simp only [List.length_cons, List.length_append, encode_length, ← hw] at hl
  have hpos : 0 < w := by rw [hw]; cases i <;> simp [Instr.kind, Kind.length]
  have hk : decodeFrom t (o + 1) (w - 1) rest = decodeFrom t (o + w) 0 ((b :: rest).drop w) := by
    rw [decodeFrom_skip t (o + 1) (w - 1) rest (by omega), show o + 1 + (w - 1) = o + w by omega]
    congr 1
    obtain ⟨n, rfl⟩ : ∃ n, w = n + 1 := ⟨w - 1, by omega⟩
    simp
  simp only [decodeFrom, h, bind, Except.bind, hk, pure, Except.pure]

/-- The scan stops at an instruction that does not decode. -/
theorem decodeFrom_error {t : Tags} {o : Nat} {b : Byte} {rest : List Byte} {e : DecodeError}
    (h : decodeOne t o b rest = .error e) : decodeFrom t o 0 (b :: rest) = .error e := by
  simp [decodeFrom, h, bind, Except.bind]

end Sys2Proof
end

