-- ==== Sys2Proof/Laws/State.lean ====
section
/-! SUPPORT. One lemma per field of `State` per update: what each named update leaves in each field. -/

namespace Sys2Proof.Machine

variable (s : State) (r r' : RegIndex) (v : Word) (a : Nat) (e : OutOfBounds) (c : Config) (p : List Instr)

@[simp] theorem State.setReg_cfg : (s.setReg r v).cfg = s.cfg := rfl
@[simp] theorem State.setReg_pc : (s.setReg r v).pc = s.pc := rfl
@[simp] theorem State.setReg_program : (s.setReg r v).program = s.program := rfl
@[simp] theorem State.setReg_mem : (s.setReg r v).mem = s.mem := rfl
@[simp] theorem State.setReg_status : (s.setReg r v).status = s.status := rfl
@[simp] theorem State.setReg_count : (s.setReg r v).count = s.count := rfl
@[simp] theorem State.setReg_cell : (s.setReg r v).cell a = s.cell a := rfl

@[simp] theorem State.setCell_cfg : (s.setCell a v).cfg = s.cfg := rfl
@[simp] theorem State.setCell_regs : (s.setCell a v).regs = s.regs := rfl
@[simp] theorem State.setCell_pc : (s.setCell a v).pc = s.pc := rfl
@[simp] theorem State.setCell_program : (s.setCell a v).program = s.program := rfl
@[simp] theorem State.setCell_mem : (s.setCell a v).mem = s.mem.write a v := rfl
@[simp] theorem State.setCell_status : (s.setCell a v).status = s.status := rfl
@[simp] theorem State.setCell_count : (s.setCell a v).count = s.count := rfl
@[simp] theorem State.setCell_getReg : (s.setCell a v).getReg r = s.getReg r := rfl

@[simp] theorem State.retire_cfg : s.retire.cfg = s.cfg := rfl
@[simp] theorem State.retire_regs : s.retire.regs = s.regs := rfl
@[simp] theorem State.retire_pc : s.retire.pc = s.pc + 1 := rfl
@[simp] theorem State.retire_program : s.retire.program = s.program := rfl
@[simp] theorem State.retire_mem : s.retire.mem = s.mem := rfl
@[simp] theorem State.retire_count : s.retire.count = s.count := rfl
@[simp] theorem State.retire_getReg : s.retire.getReg r = s.getReg r := rfl
@[simp] theorem State.retire_cell : s.retire.cell a = s.cell a := rfl
@[simp] theorem State.retire_status : s.retire.status = haltAt (s.pc + 1) s.count s.status := rfl

@[simp] theorem State.abort_cfg : (s.abort e).cfg = s.cfg := rfl
@[simp] theorem State.abort_regs : (s.abort e).regs = s.regs := rfl
@[simp] theorem State.abort_pc : (s.abort e).pc = s.pc := rfl
@[simp] theorem State.abort_program : (s.abort e).program = s.program := rfl
@[simp] theorem State.abort_mem : (s.abort e).mem = s.mem := rfl
@[simp] theorem State.abort_status : (s.abort e).status = .aborted e := rfl
@[simp] theorem State.abort_count : (s.abort e).count = s.count := rfl
@[simp] theorem State.abort_getReg : (s.abort e).getReg r = s.getReg r := rfl
@[simp] theorem State.abort_cell : (s.abort e).cell a = s.cell a := rfl

@[simp] theorem State.fresh_cfg : (State.fresh c p).cfg = c := rfl
@[simp] theorem State.fresh_regs : (State.fresh c p).regs = Vector.replicate 32 0#32 := rfl
@[simp] theorem State.fresh_pc : (State.fresh c p).pc = 0 := rfl
@[simp] theorem State.fresh_program : (State.fresh c p).program = p := rfl
@[simp] theorem State.fresh_mem : (State.fresh c p).mem = [] := rfl
@[simp] theorem State.fresh_cell : (State.fresh c p).cell a = 0#32 := rfl
theorem State.fresh_status : (State.fresh c p).status = if p.length = 0 then .halted else .loaded := rfl

@[simp] theorem State.fresh_getReg : (State.fresh c p).getReg r = 0#32 := by
  simp [State.getReg, State.fresh]

@[simp] theorem State.getReg_setReg_same : (s.setReg r v).getReg r = v := by
  simp [State.getReg, State.setReg]

theorem State.getReg_setReg_other (h : r' ≠ r) : (s.setReg r v).getReg r' = s.getReg r' := by
  have : r.val ≠ r'.val := fun e => h (Fin.ext e.symm)
  simp [State.getReg, State.setReg, this]

@[simp] theorem haltAt_end (n : Nat) (st : Status) : haltAt n n st = .halted := by simp [haltAt]

theorem haltAt_before {n m : Nat} (h : n ≠ m) (st : Status) : haltAt n m st = st := by simp [haltAt, h]

/-- Two states with the same parts are the same state. -/
theorem State.ext_fields {s t : State} (h1 : s.cfg = t.cfg) (h2 : s.regs = t.regs) (h3 : s.pc = t.pc)
    (h4 : s.program = t.program) (h5 : s.mem = t.mem) (h6 : s.status = t.status) : s = t := by
  cases s; cases t; simp_all

end Sys2Proof.Machine
end

