-- ==== Sys2Proof/Laws/Memory.lean ====
section
/-! SUPPORT. The laws of memory: read after write, in any list; the canonical form is kept; and what the two access
primitives can answer. -/

namespace Sys2Proof.Machine

@[simp] theorem Memory.read_nil (a : Nat) : Memory.read [] a = 0#32 := rfl

theorem Memory.read_filter_same (m : Memory) (a : Nat) : Memory.read (m.filter (fun p => p.1 ≠ a)) a = 0#32 := by
  induction m with
  | nil => rfl
  | cons p rest ih =>
    obtain ⟨k, w⟩ := p
    by_cases h : k = a <;> simp_all [Memory.read]

theorem Memory.read_filter_other (m : Memory) {a b : Nat} (h : b ≠ a) :
    Memory.read (m.filter (fun p => p.1 ≠ a)) b = Memory.read m b := by
  induction m with
  | nil => rfl
  | cons p rest ih =>
    obtain ⟨k, w⟩ := p
    by_cases hk : k = a
    · subst hk; simp_all [Memory.read, Ne.symm h]
    · simp_all [Memory.read]

theorem Memory.read_insertCell_other (a : Nat) (v : Word) (m : Memory) {b : Nat} (h : b ≠ a) :
    Memory.read (Memory.insertCell a v m) b = Memory.read m b := by
  induction m with
  | nil => simp [Memory.insertCell, Memory.read, Ne.symm h]
  | cons p rest ih =>
    obtain ⟨k, w⟩ := p
    by_cases hk : a < k <;> simp [Memory.insertCell, Memory.read, hk, Ne.symm h, ih]

theorem Memory.read_insertCell_same (a : Nat) (v : Word) (m : Memory) (h : ∀ p ∈ m, p.1 ≠ a) :
    Memory.read (Memory.insertCell a v m) a = v := by
  induction m with
  | nil => simp [Memory.insertCell, Memory.read]
  | cons p rest ih =>
    obtain ⟨k, w⟩ := p
    have hk : k ≠ a := h (k, w) (by simp)
    have ih' := ih (fun q hq => h q (by simp [hq]))
    by_cases hlt : a < k <;> simp [Memory.insertCell, Memory.read, hlt, hk, ih']

/-- A read after a write to the same cell gives the value written, whatever the list. -/
theorem Memory.read_write_same (m : Memory) (a : Nat) (v : Word) : (m.write a v).read a = v := by
  unfold Memory.write
  by_cases hv : v = 0#32
  · simpa [hv] using Memory.read_filter_same m a
  · simpa [hv] using Memory.read_insertCell_same a v _ (by simp)

/-- A write leaves every other cell alone, whatever the list. -/
theorem Memory.read_write_other (m : Memory) {a b : Nat} (v : Word) (h : b ≠ a) :
    (m.write a v).read b = m.read b := by
  unfold Memory.write
  by_cases hv : v = 0#32
  · simpa [hv] using Memory.read_filter_other m h
  · simpa [hv] using (Memory.read_insertCell_other a v _ h).trans (Memory.read_filter_other m h)

theorem Memory.mem_insertCell {a : Nat} {v : Word} {m : Memory} {p : Nat × Word} :
    p ∈ Memory.insertCell a v m ↔ p = (a, v) ∨ p ∈ m := by
  induction m with
  | nil => simp [Memory.insertCell]
  | cons q rest ih =>
    obtain ⟨k, w⟩ := q
    by_cases h : a < k
    · simp [Memory.insertCell, h]
    · simp only [Memory.insertCell, h, if_false, List.mem_cons, ih]; tauto

theorem Memory.insertCell_rising {a : Nat} {v : Word} {m : Memory} (hm : m.Pairwise (fun p q => p.1 < q.1))
    (ha : ∀ p ∈ m, p.1 ≠ a) : (Memory.insertCell a v m).Pairwise (fun p q => p.1 < q.1) := by
  induction m with
  | nil => simp [Memory.insertCell]
  | cons q rest ih =>
    obtain ⟨k, w⟩ := q
    have hka : k ≠ a := ha (k, w) (by simp)
    obtain ⟨hk, hrest⟩ := List.pairwise_cons.1 hm
    by_cases h : a < k
    · simp only [Memory.insertCell, h, if_true]
      refine List.pairwise_cons.2 ⟨fun p hp => ?_, hm⟩
      rcases List.mem_cons.1 hp with rfl | hp
      · exact h
      · exact h.trans (hk p hp)
    · simp only [Memory.insertCell, h, if_false]
      refine List.pairwise_cons.2 ⟨fun p hp => ?_, ih hrest (fun p hp => ha p (by simp [hp]))⟩
      rcases Memory.mem_insertCell.1 hp with rfl | hp
      · exact lt_of_le_of_ne (not_lt.1 h) hka
      · exact hk p hp

/-- A write lists no cell but the ones listed before and the one written. -/
theorem Memory.mem_write {m : Memory} {a : Nat} {v : Word} {p : Nat × Word} (h : p ∈ m.write a v) :
    p = (a, v) ∨ p ∈ m := by
  unfold Memory.write at h
  by_cases hv : v = 0#32
  · simp [hv] at h; exact .inr h.1
  · simp only [hv, if_false] at h
    rcases Memory.mem_insertCell.1 h with h | h
    · exact .inl h
    · exact .inr (List.mem_filter.1 h).1

/-- Every memory operation keeps the canonical form: a read changes nothing, and a write keeps it. -/
theorem Memory.write_wf {m : Memory} (h : m.wf) (a : Nat) (v : Word) : (m.write a v).wf := by
  obtain ⟨hr, hz⟩ := h
  have hr' := hr.filter (fun p => decide (p.1 ≠ a))
  unfold Memory.write
  by_cases hv : v = 0#32
  · simp only [hv, if_true]
    exact ⟨hr', fun p hp => hz p (List.mem_filter.1 hp).1⟩
  · simp only [hv, if_false]
    refine ⟨Memory.insertCell_rising hr' (fun p hp => by simpa using (List.mem_filter.1 hp).2), fun p hp => ?_⟩
    rcases Memory.mem_insertCell.1 hp with rfl | hp
    · exact hv
    · exact hz p (List.mem_filter.1 hp).1

theorem State.reset_mem_wf : State.reset.mem.wf := by decide

@[simp] theorem State.setCell_cell_same (s : State) (a : Nat) (v : Word) : (s.setCell a v).cell a = v :=
  Memory.read_write_same s.mem a v

theorem State.setCell_cell_other (s : State) {a b : Nat} (v : Word) (h : b ≠ a) :
    (s.setCell a v).cell b = s.cell b :=
  Memory.read_write_other s.mem v h

theorem State.memRead_inBounds {s : State} {a : Word} (h : s.inBounds a) : s.memRead a = .ok (s.cell a.toNat) := by
  simp [State.memRead, h]

theorem State.memRead_outOfBounds {s : State} {a : Word} (h : ¬ s.inBounds a) : s.memRead a = .error ⟨s.pc, a⟩ := by
  simp [State.memRead, h]

theorem State.memWrite_inBounds {s : State} {a : Word} (h : s.inBounds a) (v : Word) :
    s.memWrite a v = .ok (s.setCell a.toNat v) := by
  simp [State.memWrite, h]

theorem State.memWrite_outOfBounds {s : State} {a : Word} (h : ¬ s.inBounds a) (v : Word) :
    s.memWrite a v = .error ⟨s.pc, a⟩ := by
  simp [State.memWrite, h]

/-- Everything a memory read can answer. -/
theorem State.memRead_cases (s : State) (a : Word) :
    (s.inBounds a ∧ s.memRead a = .ok (s.cell a.toNat)) ∨ (¬ s.inBounds a ∧ s.memRead a = .error ⟨s.pc, a⟩) := by
  by_cases h : s.inBounds a
  · exact .inl ⟨h, State.memRead_inBounds h⟩
  · exact .inr ⟨h, State.memRead_outOfBounds h⟩

/-- Everything a memory write can answer. -/
theorem State.memWrite_cases (s : State) (a v : Word) :
    (s.inBounds a ∧ s.memWrite a v = .ok (s.setCell a.toNat v)) ∨
      (¬ s.inBounds a ∧ s.memWrite a v = .error ⟨s.pc, a⟩) := by
  by_cases h : s.inBounds a
  · exact .inl ⟨h, State.memWrite_inBounds h v⟩
  · exact .inr ⟨h, State.memWrite_outOfBounds h v⟩

end Sys2Proof.Machine
end

