-- ==== Sys2Proof/Laws/PerInstr.lean ====
section
/-! SUPPORT. Statements made for every instruction, one lemma per constructor of `Instr`. -/

namespace Sys2Proof.Laws

/-- The Instruction Model accepts the operands of every instruction and gives that instruction back: the operand types of
`Instr` hold only legal values (R66). -/
def CandidateAccepted.Statement (i : Instr) : Prop := i.candidate.validate = .ok i

theorem checkReg_ok (f : Field) (r : RegIndex) : checkReg f r.val = .ok r := by
  simp [checkReg]

theorem checkBits_ok (f : Field) {width : Nat} (v : BitVec width) : checkBits f width v.toNat = .ok v := by
  simp [checkBits, v.isLt]

theorem CandidateAccepted.loadConst (reg : RegIndex) (value : BitVec 24) :
    CandidateAccepted.Statement (.loadConst reg value) := by
  simp [Statement, Instr.candidate, Candidate.validate, checkReg_ok, checkBits_ok, bind, Except.bind, pure, Except.pure]

theorem CandidateAccepted.readMem (dstReg addrReg : RegIndex) :
    CandidateAccepted.Statement (.readMem dstReg addrReg) := by
  simp [Statement, Instr.candidate, Candidate.validate, checkReg_ok, bind, Except.bind, pure, Except.pure]

theorem CandidateAccepted.writeMem (srcReg addrReg : RegIndex) :
    CandidateAccepted.Statement (.writeMem srcReg addrReg) := by
  simp [Statement, Instr.candidate, Candidate.validate, checkReg_ok, bind, Except.bind, pure, Except.pure]

theorem CandidateAccepted.shiftRight (reg : RegIndex) (address : BitVec 30) :
    CandidateAccepted.Statement (.shiftRight reg address) := by
  simp [Statement, Instr.candidate, Candidate.validate, checkReg_ok, checkBits_ok, bind, Except.bind, pure, Except.pure]

end Sys2Proof.Laws
end

