-- ==== Sys2Proof/Laws/Step.lean ====
section
/-! SUPPORT. What one step can do, said once: which states step, and the two ends a step can have. -/

namespace Sys2Proof.Machine

/-- The two ways an instruction ends: it completes, with at most one register or one allocated cell written and pc
advanced, or it aborts with an address that is not allocated. -/
inductive Ends (s : State) : State → Prop where
  | wroteReg (r : RegIndex) (v : Word) : Ends s (s.setReg r v).retire
  | wroteCell (a v : Word) (h : s.inBounds a) : Ends s (s.setCell a.toNat v).retire
  | aborted (a : Word) (h : ¬ s.inBounds a) : Ends s (s.abort ⟨s.pc, a⟩)

theorem exec_loadConst (reg : RegIndex) (value : BitVec 24) (s : State) :
    exec (.loadConst reg value) s = .next (s.setReg reg (constOperand value)).retire := rfl

theorem exec_readMem_cases (dst addr : RegIndex) (s : State) :
    (s.inBounds (s.getReg addr) ∧
      exec (.readMem dst addr) s = .next (s.setReg dst (s.cell (s.getReg addr).toNat)).retire) ∨
    (¬ s.inBounds (s.getReg addr) ∧ exec (.readMem dst addr) s = .next (s.abort ⟨s.pc, s.getReg addr⟩)) := by
  rcases s.memRead_cases (s.getReg addr) with ⟨h, e⟩ | ⟨h, e⟩
  · exact .inl ⟨h, by simp [exec, execReadMem, registerAddress, e]⟩
  · exact .inr ⟨h, by simp [exec, execReadMem, registerAddress, e]⟩

theorem exec_writeMem_cases (src addr : RegIndex) (s : State) :
    (s.inBounds (s.getReg addr) ∧
      exec (.writeMem src addr) s = .next (s.setCell (s.getReg addr).toNat (s.getReg src)).retire) ∨
    (¬ s.inBounds (s.getReg addr) ∧ exec (.writeMem src addr) s = .next (s.abort ⟨s.pc, s.getReg addr⟩)) := by
  rcases s.memWrite_cases (s.getReg addr) (s.getReg src) with ⟨h, e⟩ | ⟨h, e⟩
  · exact .inl ⟨h, by simp [exec, execWriteMem, registerAddress, e]⟩
  · exact .inr ⟨h, by simp [exec, execWriteMem, registerAddress, e]⟩

theorem exec_shiftRight_cases (reg : RegIndex) (address : BitVec 30) (s : State) :
    (s.inBounds (literalAddress address) ∧
      exec (.shiftRight reg address) s =
        .next (s.setCell (literalAddress address).toNat (shiftUnit (s.getReg reg))).retire) ∨
    (¬ s.inBounds (literalAddress address) ∧
      exec (.shiftRight reg address) s = .next (s.abort ⟨s.pc, literalAddress address⟩)) := by
  rcases s.memWrite_cases (literalAddress address) (shiftUnit (s.getReg reg)) with ⟨h, e⟩ | ⟨h, e⟩
  · exact .inl ⟨h, by simp [exec, execShiftRight, e]⟩
  · exact .inr ⟨h, by simp [exec, execShiftRight, e]⟩

/-- Every instruction gives a next state, which ends in one of the ways of `Ends`. -/
theorem exec_ends (i : Instr) (s : State) : ∃ t, exec i s = .next t ∧ Ends s t := by
  cases i with
  | loadConst reg value => exact ⟨_, rfl, .wroteReg _ _⟩
  | readMem dst addr =>
    rcases exec_readMem_cases dst addr s with ⟨_, e⟩ | ⟨h, e⟩
    · exact ⟨_, e, .wroteReg _ _⟩
    · exact ⟨_, e, .aborted _ h⟩
  | writeMem src addr =>
    rcases exec_writeMem_cases src addr s with ⟨h, e⟩ | ⟨h, e⟩
    · exact ⟨_, e, .wroteCell _ _ h⟩
    · exact ⟨_, e, .aborted _ h⟩
  | shiftRight reg address =>
    rcases exec_shiftRight_cases reg address s with ⟨h, e⟩ | ⟨h, e⟩
    · exact ⟨_, e, .wroteCell _ _ h⟩
    · exact ⟨_, e, .aborted _ h⟩

/-- A step that gives a next state fetched an instruction in `Loaded` and ran it. -/
theorem step_next {s t : State} (h : step s = .next t) :
    s.status = .loaded ∧ ∃ i, s.program[s.pc]? = some i ∧ exec i s = .next t := by
  unfold step at h
  split at h
  · rename_i hs
    split at h
    · rename_i i hi
      exact ⟨hs, i, hi, h⟩
    · cases h
  all_goals cases h

end Sys2Proof.Machine
end

