-- ==== Sys2Proof/Laws/Safety.lean ====
section
/-! SUPPORT. What a coherent state says in each status, and what a step keeps whole. -/

namespace Sys2Proof.Machine

theorem State.coherent_loaded {s : State} (h : s.status = .loaded) : s.coherent ↔ s.pc < s.count := by
  rw [State.coherent, h]; simp [Status.fits]

theorem State.coherent_halted {s : State} (h : s.status = .halted) : s.coherent ↔ s.pc = s.count := by
  rw [State.coherent, h]; simp [Status.fits]

theorem State.coherent_aborted {s : State} {e : OutOfBounds} (h : s.status = .aborted e) :
    s.coherent ↔ e.pc = s.pc ∧ s.pc < s.count ∧ s.cfg.memSize ≤ e.addr.toNat := by
  rw [State.coherent, h]; simp [Status.fits]

/-- The state after an instruction that completes in `Loaded` before the end is `Loaded`, and `Halted` at the end. -/
theorem haltAt_cases {pc count : Nat} : (pc = count ∧ haltAt pc count .loaded = .halted) ∨
    (pc ≠ count ∧ haltAt pc count .loaded = .loaded) := by
  by_cases h : pc = count
  · exact .inl ⟨h, by rw [h, haltAt_end]⟩
  · exact .inr ⟨h, haltAt_before h _⟩

/-- A step that gives a next state was taken in `Loaded`, at an instruction of the program, and ended in one of the two
ways of `Ends`. -/
theorem step_ends {s t : State} (h : step s = .next t) : s.status = .loaded ∧ s.pc < s.count ∧ Ends s t := by
  obtain ⟨hs, i, hi, he⟩ := step_next h
  obtain ⟨t', e, ends⟩ := exec_ends i s
  rw [e] at he
  cases he
  exact ⟨hs, (List.getElem?_eq_some_iff.1 hi).1, ends⟩

/-- A load either makes the engine fresh or leaves the error in the status. -/
theorem State.load_cases (s : State) (stream : List Byte) :
    (∃ p, decodeProgram s.cfg.tags stream = .ok p ∧ s.load stream = State.fresh s.cfg p) ∨
    ∃ e, decodeProgram s.cfg.tags stream = .error e ∧ (s.load stream).status = .loadFailed e ∧
      (s.load stream).cfg = s.cfg := by
  cases h : decodeProgram s.cfg.tags stream with
  | ok p => exact .inl ⟨p, rfl, by simp [State.load, h]⟩
  | error e => exact .inr ⟨e, rfl, by simp [State.load, h], by simp [State.load, h]⟩

end Sys2Proof.Machine
end

