-- ==== Sys2Proof/Tests/Slice0.lean ====
section
/-! SUPPORT. The model's own tests. The expected results are the spec's vectors (`95_test_vectors.md`, named at each test)
or are worked out by hand from the formats. After them, for every statement with hypotheses, a witness: a concrete state
and operands that meet them all. -/

namespace Sys2Proof.Tests

open Sys2Proof Sys2Proof.Machine

/-! ### WellFormed: each check refuses an ill-formed term (S5, and the counts of R66) -/

theorem test_validate_too_few : Candidate.wellFormed ⟨.loadConst, [3]⟩ = false := by decide
theorem test_validate_too_many : Candidate.wellFormed ⟨.readMem, [3, 4, 5]⟩ = false := by decide
theorem test_validate_loadConst_reg : Candidate.validate ⟨.loadConst, [32, 0]⟩ = .error (.range .reg 32) := by decide
theorem test_validate_loadConst_value :
    Candidate.validate ⟨.loadConst, [0, 16777216]⟩ = .error (.range .value 16777216) := by decide
theorem test_validate_readMem_dst : Candidate.validate ⟨.readMem, [32, 32]⟩ = .error (.range .dstReg 32) := by decide
theorem test_validate_readMem_addr : Candidate.validate ⟨.readMem, [0, 32]⟩ = .error (.range .addrReg 32) := by decide
theorem test_validate_writeMem_src : Candidate.validate ⟨.writeMem, [32, 0]⟩ = .error (.range .srcReg 32) := by decide
theorem test_validate_writeMem_addr : Candidate.validate ⟨.writeMem, [0, 32]⟩ = .error (.range .addrReg 32) := by decide
theorem test_validate_shiftRight_reg : Candidate.validate ⟨.shiftRight, [32, 0]⟩ = .error (.range .reg 32) := by decide
theorem test_validate_shiftRight_address :
    Candidate.validate ⟨.shiftRight, [0, 1073741824]⟩ = .error (.range .address 1073741824) := by decide
/-- The model's choice (notes/assumptions/19.md): both operands out of range. -/
theorem test_validate_names_first :
    Candidate.validate ⟨.shiftRight, [32, 1073741824]⟩ = .error (.range .reg 32) := by decide
theorem test_validate_boundary :
    Candidate.validate ⟨.shiftRight, [31, 1073741823]⟩ = .ok (.shiftRight 31 1073741823#30) := by decide

/-! ### Decode: each constructor from bytes written out from its format (R53 to R55; vectors E1, E3) -/

theorem test_decode_loadConst : decodeProgram referenceTags [0b00000001#8, 0b00000101#8, 0b00010010#8, 0b00110100#8,
    0b01010110#8] = .ok [.loadConst 5 1193046#24] := by decide
theorem test_decode_readMem :
    decodeProgram referenceTags [0b00000010#8, 0b00000010#8, 0b00000001#8] = .ok [.readMem 2 1] := by decide
theorem test_decode_writeMem :
    decodeProgram referenceTags [0b00000011#8, 0b00011111#8, 0b00000001#8] = .ok [.writeMem 31 1] := by decide
theorem test_decode_shiftRight : decodeProgram referenceTags [0b00000100#8, 0b00000111#8, 0b00000001#8, 0b00000010#8,
    0b00000011#8, 0b00000100#8] = .ok [.shiftRight 7 16909060#30] := by decide
theorem test_tableWord_loadConst : decodeTableWord 40 0x011fffffff = some (.loadConst 31 16777215#24) := by decide
theorem test_tableWord_shiftRight : decodeTableWord 48 0x041f3fffffff = some (.shiftRight 31 1073741823#30) := by decide
/-- Program P1: four instructions of three lengths. -/
theorem test_decode_program : decodeProgram referenceTags [1, 0, 0, 0, 5, 1, 1, 0, 1, 0, 3, 0, 1, 2, 2, 1] =
    .ok [.loadConst 0 5, .loadConst 1 256, .writeMem 0 1, .readMem 2 1] := by decide
theorem test_decode_unknown_second : decodeProgram referenceTags [1, 3, 0, 0, 0x10, 7, 1, 1] = .error (.unknownTag 5 7) := by
  decide
theorem test_decode_truncated_last : decodeProgram referenceTags [1, 0, 0, 0, 5, 1, 1, 0, 1, 0, 3, 0, 1, 2, 2] =
    .error (.truncated 13 2 3 2) := by decide
theorem test_decode_first_bad_field :
    decodeProgram referenceTags [2, 0x20, 0x20] = .error (.fieldOutOfRange 0 .dstReg 32) := by decide
theorem test_decode_reg_before_address :
    decodeProgram referenceTags [4, 0x20, 0x40, 0, 0, 0] = .error (.fieldOutOfRange 0 .reg 32) := by decide
theorem test_decode_address_limit :
    decodeProgram referenceTags [4, 4, 0x40, 0, 0, 0] = .error (.fieldOutOfRange 0 .address 1073741824) := by decide
theorem test_encode_shiftRight :
    encode referenceTags (.shiftRight 4 305419896#30) = [0x04, 0x04, 0x12, 0x34, 0x56, 0x78] := by decide

/-! ### The assembler (vectors A1) -/

theorem test_assemble_comment_hex :
    assembleLine "LOAD_CONST 3, 0x10 ; set r3".toList = .ok (some (.loadConst 3 16)) := by decide
theorem test_assemble_case_spaces : assembleLine "Load_Const 3 , 16".toList = .ok (some (.loadConst 3 16)) := by decide
theorem test_assemble_comment_only : assembleLine "   ; indented comment".toList = .ok none := by decide
theorem test_assemble_comment_cuts : assembleLine "LOAD_CONST 3; , 1".toList = .error (.arity 2 1) := by decide
theorem test_assemble_no_operands : assembleLine "LOAD_CONST".toList = .error (.arity 2 0) := by decide
theorem test_assemble_inner_space : assembleLine "LOAD_CONST 1 2, 3".toList = .error .invalidArgument := by decide
theorem test_assemble_argument_first : assembleLine "FOO x, 1".toList = .error .invalidArgument := by decide
theorem test_assemble_unknown : assembleLine "MOV 1, 2".toList = .error .unknownInstruction := by decide
theorem test_assemble_bad_hex : assembleLine "LOAD_CONST 3, 0xZZ".toList = .error .invalidArgument := by decide
theorem test_assemble_range : assembleLine "SHR 4, 1073741824".toList = .error (.range .address 1073741824) := by decide
/-- R78: lines are numbered from 1. -/
theorem test_assemble_line_number : assembleSource .reportAll "SHR 4, 8\nMOV 1, 2".toList =
    .error [⟨2, "MOV 1, 2".toList, .unknownInstruction⟩] := by decide
theorem test_text_loadConst : Instr.text (.loadConst 3 16) = "LOAD_CONST 3, 16".toList := by decide

/-! ### One instruction each, on a small state (vectors L, M, H) -/

/-- A `Loaded` state of 256 cells with pc 0 and room to go on: x[1], x[2] and one cell are given. -/
def small (p : List Instr) (x1 x2 : Word) (mem : Memory) : State :=
  ((State.fresh ⟨referenceTags, 256⟩ p).setReg 1 x1).setReg 2 x2 |> fun s => { s with mem := mem }

/-- Does the step give a next state with this property? -/
def stepsTo (s : State) (good : State → Bool) : Bool :=
  match step s with
  | .next t => good t
  | .fault _ => false
  | .refused _ => false

theorem test_loadConst_replaces : stepsTo (small [.loadConst 1 0x1#24] 0xABCDEF#32 0 [])
    (fun t => t.getReg 1 = 1#32 ∧ t.pc = 1 ∧ t.status = .halted) = true := by decide
theorem test_loadConst_reg0 : stepsTo (small [.loadConst 0 0xFFFFFF#24] 0 0 [])
    (fun t => t.getReg 0 = 16777215#32) = true := by decide
theorem test_readMem_same_register : stepsTo (small [.readMem 1 1] 7 0 [(7, 9)])
    (fun t => t.getReg 1 = 9#32 ∧ t.mem = [(7, 9)]) = true := by decide
theorem test_readMem_abort : stepsTo (small [.readMem 2 1] 256 77 [])
    (fun t => t.status = .aborted ⟨0, 256⟩ ∧ t.getReg 2 = 77#32 ∧ t.pc = 0) = true := by decide
theorem test_writeMem_zero_unlists : stepsTo (small [.writeMem 2 1, .readMem 2 1] 12 0 [(12, 99)])
    (fun t => t.mem = [] ∧ t.pc = 1 ∧ t.status = .loaded) = true := by decide
theorem test_writeMem_last_cell : stepsTo (small [.writeMem 2 1] 255 4 [(8, 3)])
    (fun t => t.mem = [(8, 3), (255, 4)]) = true := by decide
theorem test_shiftRight_replaces : stepsTo (small [.shiftRight 1 8#30] 7 0 [(8, 99)])
    (fun t => t.cell 8 = 3#32 ∧ t.getReg 1 = 7#32) = true := by decide
theorem test_shiftRight_abort : stepsTo (small [.shiftRight 1 256#30] 7 0 [])
    (fun t => t.status = .aborted ⟨0, 256⟩ ∧ t.mem = []) = true := by decide
theorem test_shiftUnit_top_bit : shiftUnit 0x80000000#32 = 0x40000000#32 := by decide

/-! ### The host interface (vectors D and Q) -/

theorem test_load_empty_halts : (State.reset.load []).status = .halted := by decide
theorem test_load_failure : (State.reset.load [1, 3, 0, 0]).status = .loadFailed (.truncated 0 1 5 4) := by decide
theorem test_dump : (small [] 0 0 [(6, 5)]).dump 5 8 = .ok [(5, 0), (6, 5), (7, 0)] := by decide
/-- The snapshot is in index order: x[1] and x[2] are told apart, and both from x[0]. -/
theorem test_snapshot_order : (match (small [] 7 5 []).snapshot with
    | .ok x => decide (x.toList.take 3 = [0#32, 7#32, 5#32])
    | .error _ => false) = true := by decide
theorem test_dump_bad_range : (small [] 0 0 []).dump 5 4 = .error (.dumpRange 5 4) := by decide
theorem test_withFetchWord : stepsTo (State.reset.withFetchWord 40 0x0103000010)
    (fun t => t.getReg 3 = 16#32 ∧ t.status = .halted) = true := by decide
theorem test_withFetchWord_undecodable :
    (State.reset.withFetchWord 24 0x022000).status = .loadFailed (.fieldOutOfRange 0 .dstReg 32) := by decide

/-! ### Witnesses: encoding, decoding, the assembler -/

theorem witness_DecodeInvertsEncode : referenceTags.distinct := by decide
theorem witness_DecodeProgramInvertsEncodeProgram : referenceTags.distinct := by decide
theorem witness_DecodedStreamIsItsEncoding :
    decodeProgram referenceTags [2, 31, 0, 4, 4, 0x3f, 0xff, 0xff, 0xff] =
      .ok [.readMem 31 0, .shiftRight 4 1073741823#30] := by decide
theorem witness_LengthDependsOnTheKind :
    decodeOne referenceTags 0 1 [31, 255, 255, 255] = .ok (.loadConst 31 16777215#24, 5) ∧
    decodeOne referenceTags 7 1 [0, 0, 0, 0, 9] = .ok (.loadConst 0 0#24, 5) := by decide
theorem witness_UnknownTagFailsTheLoad :
    State.reset.cfg.tags.distinct ∧ (∀ k : Kind, 0x05#8 ≠ State.reset.cfg.tags.ofKind k) ∧
      ∀ k : Kind, 0x00#8 ≠ State.reset.cfg.tags.ofKind k :=
  ⟨by decide, fun k => by cases k <;> decide, fun k => by cases k <;> decide⟩
theorem witness_TruncatedStreamFailsTheLoad :
    State.reset.cfg.tags.distinct ∧ ([0xff, 0xff, 0xff, 0xff] : List Byte).length + 1 < Kind.shiftRight.length ∧
      ([] : List Byte).length + 1 < Kind.readMem.length := by decide
theorem witness_OutOfRangeFieldFailsToDecode :
    referenceTags.distinct ∧ 32 ≤ (32#8).toNat ∧ (31#8).toNat < 32 ∧
      2 ^ 30 ≤ (0x40#8).toNat * 16777216 + (0#8).toNat * 65536 + (0#8).toNat * 256 + (0#8).toNat := by decide
theorem witness_DecodeErrorsCarryTheirRecord :
    referenceTags.distinct ∧ (∀ k : Kind, 0xff#8 ≠ referenceTags.ofKind k) ∧
      0x01#8 = referenceTags.ofKind .loadConst ∧ ([3, 0, 0] : List Byte).length + 1 < Kind.loadConst.length :=
  ⟨by decide, fun k => by cases k <;> decide, by decide, by decide⟩
theorem witness_FirstErrorStopsTheLoad :
    State.reset.cfg.tags.distinct ∧
      decodeOne State.reset.cfg.tags (encodeProgram State.reset.cfg.tags [.loadConst 3 16]).length 2 [0x20, 1, 9] =
        .error (.fieldOutOfRange 5 .dstReg 32) := by decide
theorem witness_ValidationAcceptsExactlyTheRanges :
    Candidate.validate ⟨.loadConst, [31, 16777215]⟩ = .ok (.loadConst 31 16777215#24) ∧
    ([1] : List Nat).length ≠ 2 ∧ Kind.loadConst.fields.1.bound ≤ 32 ∧
    31 < Kind.loadConst.fields.1.bound ∧ Kind.loadConst.fields.2.bound ≤ 16777216 := by decide
theorem witness_WrongOperandCountIsReported :
    lineTokens (stripLine "SHR 1, 2, 3".toList) = "SHR".toList :: ["1,".toList, "2,".toList, "3".toList] ∧
    kindOfMnemonic "SHR".toList = some .shiftRight ∧
    (operandTokens ["1,".toList, "2,".toList, "3".toList]).mapM parseInteger = some [1, 2, 3] ∧
    (operandTokens ["1,".toList, "2,".toList, "3".toList]).length ≠ 2 := by decide
theorem witness_OperandRangesAreChecked :
    lineTokens (stripLine "shr 31,1073741824".toList) = "shr".toList :: ["31,1073741824".toList] ∧
    kindOfMnemonic "shr".toList = some .shiftRight ∧
    (operandTokens ["31,1073741824".toList]).mapM parseInteger = some [31, 1073741824] ∧
    31 < Kind.shiftRight.fields.1.bound ∧ Kind.shiftRight.fields.2.bound ≤ 1073741824 := by decide
theorem witness_OperandRangesAreChecked_register :
    (operandTokens ["32,1073741823".toList]).mapM parseInteger = some [32, 1073741823] ∧
    Kind.shiftRight.fields.1.bound ≤ 32 ∧ 1073741823 < Kind.shiftRight.fields.2.bound := by decide

/-! ### Witnesses: memory, load, the four instructions -/

theorem witness_MemReadChecksThenReads :
    (small [] 0 0 []).cfg.memSize ≤ (256#32).toNat ∧ (255#32).toNat < (small [] 0 0 []).cfg.memSize := by decide
theorem witness_MemWriteChecksThenWritesOneCell :
    (small [] 0 0 []).cfg.memSize ≤ (256#32).toNat ∧ (255#32).toNat < (small [] 0 0 []).cfg.memSize := by decide
theorem witness_CanonicalMemoriesThatReadAlikeAreEqual :
    Memory.wf [(0, 1#32), (255, 4#32)] ∧ Memory.wf [(0, 1#32), (255, 4#32)] ∧
      ∀ a : Nat, Memory.read [(0, 1#32), (255, 4#32)] a = Memory.read [(0, 1#32), (255, 4#32)] a :=
  ⟨by decide, by decide, fun _ => rfl⟩
theorem witness_SuccessfulLoadIsAFullReset :
    (small [] 7 0 [(7, 9)]).cfg = (small [.loadConst 1 1] 0 0 []).cfg ∧
      decodeProgram (small [.loadConst 1 1] 0 0 []).cfg.tags [2, 0, 0] = .ok [.readMem 0 0] := by decide
theorem witness_LoadSetsTheStatus : decodeProgram State.reset.cfg.tags [2, 0, 0] = .ok [.readMem 0 0] := by decide
theorem witness_LoadSetsTheStatus_empty : decodeProgram State.reset.cfg.tags [] = .ok [] := by decide
theorem witness_FailedLoadCanNeitherRunNorBeRead :
    decodeProgram State.reset.cfg.tags [0xff] = .error (.unknownTag 0 0xff) := by decide
theorem witness_LoadConstResult : (31 < 32 ∨ 16777215 < 0) ∧ (31 < 31 ∨ 16777215 < 16777216) := by decide
theorem witness_ReadMemResult :
    (registerAddress (small [] 255 0 []) 1).toNat < (small [] 255 0 []).cfg.memSize := by decide
theorem witness_WriteMemResult :
    (registerAddress (small [] 255 0 []) 1).toNat < (small [] 255 0 []).cfg.memSize := by decide
theorem witness_ShiftRightResult :
    (literalAddress 255#30).toNat < (small [] 0 0 []).cfg.memSize ∧
      (literalAddress 1073741823#30).toNat < State.reset.cfg.memSize := by decide
theorem witness_OutOfBoundsAbortsAndChangesNothingElse :
    (small [] 256 0 []).cfg.memSize ≤ ((small [] 256 0 []).getReg 1).toNat ∧
      (small [] 256 0 []).cfg.memSize ≤ (256#30).toNat := by decide
/-- The last clause: an engine already aborted, since no LOAD_CONST aborts one. -/
theorem witness_OutOfBoundsAbortsAndChangesNothingElse_loadConst :
    ∃ t, exec (.loadConst 1 1) ((small [.loadConst 1 1, .loadConst 1 1] 0 0 []).abort ⟨0, 256⟩) = .next t ∧
      t.status = .aborted ⟨0, 256⟩ :=
  ⟨_, rfl, by decide⟩
theorem witness_RepeatedShiftDoesNotAccumulate :
    (literalAddress 255#30).toNat < (small [] 7 0 []).cfg.memSize := by decide
theorem witness_OnlyTheListedRegistersAreRead :
    (small [] 7 5 []).cfg = (small [] 7 6 []).cfg ∧ (small [] 7 5 []).pc = (small [] 7 6 []).pc ∧
    (small [] 7 5 []).program = (small [] 7 6 []).program ∧ (small [] 7 5 []).mem = (small [] 7 6 []).mem ∧
    (small [] 7 5 []).status = (small [] 7 6 []).status ∧
    (∀ r ∈ (Instr.readMem 3 1).readRegs, (small [] 7 5 []).getReg r = (small [] 7 6 []).getReg r) ∧
    (Instr.readMem 3 1).completesIn (small [] 7 6 []) = true ∧ (Instr.readMem 3 1).destReg = some 3 := by decide
theorem witness_EveryInstructionHasItsFrame :
    (Instr.writeMem 2 1).destReg ≠ some 2 ∧ (Instr.writeMem 2 1).storeAddress (small [] 255 0 []) = some 255#32 := by
  decide
theorem witness_PcAdvancesByExactlyOne :
    (Instr.shiftRight 1 255#30).completesIn (small [] 0 0 []) = true ∧
      (Instr.shiftRight 1 256#30).completesIn (small [] 0 0 []) = false := by decide

/-! ### Witnesses: the sequencer, the host, the invariants -/

theorem witness_StepRunsTheFetchedInstruction :
    (small [.readMem 2 1] 0 0 []).status = .loaded ∧
      (small [.readMem 2 1] 0 0 []).program[(small [.readMem 2 1] 0 0 []).pc]? = some (.readMem 2 1) := by decide
theorem witness_PlacedWordIsTheNextInstruction :
    State.reset.cfg.tags = referenceTags ∧ decodeTableWord 24 0x031f1f = some (.writeMem 31 31) := by decide
theorem witness_StepIsRefusedOutsideLoaded : State.reset.status ≠ .loaded := by decide
theorem witness_OnlyALoadChangesTheProgram :
    (∃ t a, (small [.writeMem 2 1] 255 4 []).serve .step = .next (t, a)) ∧ ∀ stream, Request.step ≠ .load stream :=
  ⟨⟨_, _, rfl⟩, fun _ h => by cases h⟩
theorem witness_HaltedExactlyAtTheEnd :
    Reachable referenceConfig (State.reset.load []) ∧ (State.reset.load []).status = .halted ∧
      (State.reset.load []).serve .run = .next (State.reset.load [], .status .halted) :=
  ⟨.load _ _ rfl, by decide, by rfl⟩
theorem witness_RunAlwaysEnds :
    (small [.loadConst 3 1, .writeMem 2 1] 255 4 [(8, 3)]).wf ∧
      (small [.loadConst 3 1, .writeMem 2 1] 255 4 [(8, 3)]).status = .loaded := by decide
theorem witness_CompleteRunTakesOneStepAnInstruction :
    (small [.loadConst 3 1, .writeMem 2 1] 255 4 []).wf ∧
    (small [.loadConst 3 1, .writeMem 2 1] 255 4 []).status = .loaded ∧
    (small [.loadConst 3 1, .writeMem 2 1] 255 4 []).run.completed := by decide
theorem witness_AbortsArePrecise :
    (small [.loadConst 3 1, .writeMem 2 1] 256 4 []).wf ∧
    (small [.loadConst 3 1, .writeMem 2 1] 256 4 []).status = .loaded ∧
    (small [.loadConst 3 1, .writeMem 2 1] 256 4 []).run.status = .aborted ⟨1, 256⟩ := by decide
theorem witness_SameStreamRunsTheSame :
    (small [] 7 0 [(7, 9)]).cfg = (small [] 0 0 []).cfg ∧
      decodeProgram (small [] 0 0 []).cfg.tags [2, 0, 0] = .ok [.readMem 0 0] := by decide
theorem witness_NextInstructionSeesTheWrite :
    (small [.writeMem 2 1, .readMem 1 1] 255 4 []).status = .loaded ∧
    (small [.writeMem 2 1, .readMem 1 1] 255 4 []).program[1]? = some (.readMem 1 1) ∧
    (registerAddress (small [.writeMem 2 1, .readMem 1 1] 255 4 []) 1).toNat < 256 := by decide
theorem witness_NextInstructionSeesTheWrite_shift :
    (small [.shiftRight 2 255#30, .readMem 1 1] 255 4 []).status = .loaded ∧
    (small [.shiftRight 2 255#30, .readMem 1 1] 255 4 []).program[0]? = some (.shiftRight 2 255#30) ∧
    registerAddress (small [.shiftRight 2 255#30, .readMem 1 1] 255 4 []) 1 = literalAddress 255#30 ∧
    (255#30).toNat < 256 := by decide
theorem witness_NextInstructionSeesTheWrite_const :
    (small [.loadConst 2 7, .shiftRight 2 255#30] 0 0 []).status = .loaded ∧
    (small [.loadConst 2 7, .shiftRight 2 255#30] 0 0 []).program[0]? = some (.loadConst 2 7) ∧
    (small [.loadConst 2 7, .shiftRight 2 255#30] 0 0 []).program[1]? = some (.shiftRight 2 255#30) := by decide
theorem witness_DumpListsTheCells :
    (small [] 0 0 []).status.readable = true ∧ 255 ≤ 256 ∧ 256 ≤ (small [] 0 0 []).cfg.memSize ∧
      (4 < 5 ∨ (small [] 0 0 []).cfg.memSize < 0) ∧ (1 < 0 ∨ (small [] 0 0 []).cfg.memSize < 257) := by decide
theorem witness_SnapshotGivesTheRegisters :
    (small [.readMem 2 1] 7 5 []).status = .loaded ∧ (small [] 7 5 []).status = .halted ∧
      ((small [.readMem 2 1] 256 5 []).abort ⟨0, 256⟩).status = .aborted ⟨0, 256⟩ := by decide
theorem witness_StepKeepsWellFormed :
    (small [.writeMem 2 1] 255 4 [(8, 3)]).wf ∧ ∃ t, step (small [.writeMem 2 1] 255 4 [(8, 3)]) = .next t :=
  ⟨by decide, _, rfl⟩
theorem witness_EveryRequestKeepsWellFormed :
    (small [.writeMem 2 1] 255 4 [(8, 3)]).wf ∧
      ∃ t a, (small [.writeMem 2 1] 255 4 [(8, 3)]).serve (.load [0xff]) = .next (t, a) :=
  ⟨by decide, _, _, rfl⟩
theorem witness_StepNeverFaultsWhenWellFormed : (small [.writeMem 2 1] 255 4 [(8, 3)]).wf := by decide

/-- A state of the full memory with every value below 2^24, the largest such value in x[1]. -/
theorem below24_fresh (p : List Instr) : ((State.fresh referenceConfig p).setReg 1 0xFFFFFF#32).below24 := by
  refine fun _ => ⟨fun r => ?_, fun a => by simp⟩
  by_cases h : r = 1
  · subst h; simp
  · rw [State.getReg_setReg_other _ _ _ _ h]; simp

theorem witness_StepKeepsValuesBelow24Bits :
    ((State.fresh referenceConfig [.writeMem 1 1]).setReg 1 0xFFFFFF#32).below24 ∧
      ∃ t, step ((State.fresh referenceConfig [.writeMem 1 1]).setReg 1 0xFFFFFF#32) = .next t :=
  ⟨below24_fresh _, _, rfl⟩
theorem witness_NoAbortWithFullMemory :
    2 ^ 30 ≤ referenceConfig.memSize ∧ Reachable referenceConfig (State.reset.load [2, 0, 0]) :=
  ⟨by decide, .load _ _ rfl⟩
/-- The lowest high cell: SHR writes the cell at 2^24. -/
theorem witness_HighCellsAreWrittenOnlyByShr :
    let s := (State.fresh referenceConfig [.shiftRight 1 16777216#30]).setReg 1 0xFFFFFF#32
    s.below24 ∧ ∃ t, step s = .next t ∧ 2 ^ 24 ≤ 16777216 ∧ t.cell 16777216 ≠ s.cell 16777216 :=
  ⟨below24_fresh _, _, rfl, by decide, by decide⟩

end Sys2Proof.Tests
end

section
/-! SUPPORT. The program counter (R13 to R15): what an instruction writes beside pc, and that pc does not enter it. -/

namespace Sys2Proof

open Machine

/-- What an instruction that completes writes, pc left aside: one register or one cell (R110, R115, R116, R125).
`exec_cases` ties it to `exec`. -/
def Instr.writeResult (i : Instr) (s : State) : State :=
  match i with
  | .loadConst reg value => s.setReg reg (constOperand value)
  | .readMem dstReg addrReg => s.setReg dstReg (s.cell (s.getReg addrReg).toNat)
  | .writeMem srcReg addrReg => s.setCell (s.getReg addrReg).toNat (s.getReg srcReg)
  | .shiftRight reg address => s.setCell (literalAddress address).toNat (shiftUnit (s.getReg reg))

@[simp] theorem Instr.writeResult_pc (i : Instr) (s : State) : (i.writeResult s).pc = s.pc := by
  cases i <;> rfl

/-- The write is the same at any pc. -/
@[simp] theorem Instr.writeResult_withPc (i : Instr) (s : State) (k : Nat) :
    i.writeResult { s with pc := k } = { i.writeResult s with pc := k } := by
  cases i <;> rfl

/-- Whether an instruction completes is the same at any pc: its address and MEM_SIZE decide it. -/
@[simp] theorem Instr.completesIn_withPc (i : Instr) (s : State) (k : Nat) :
    i.completesIn { s with pc := k } = i.completesIn s := by
  cases i <;> rfl

namespace Machine

/-- Everything an instruction can do: it completes, with its write done and pc advanced, or it aborts with the address
it tried to access. -/
theorem exec_cases (i : Instr) (s : State) :
    (i.completesIn s = true ∧ exec i s = .next (i.writeResult s).retire) ∨
      (i.completesIn s = false ∧ ∃ a, i.accessAddress s = some a ∧ exec i s = .next (s.abort ⟨s.pc, a⟩)) := by
  cases i with
  | loadConst reg value => exact .inl ⟨rfl, exec_loadConst reg value s⟩
  | readMem dst addr =>
    rcases exec_readMem_cases dst addr s with ⟨h, e⟩ | ⟨h, e⟩
    · exact .inl ⟨decide_eq_true h, e⟩
    · exact .inr ⟨decide_eq_false h, _, rfl, e⟩
  | writeMem src addr =>
    rcases exec_writeMem_cases src addr s with ⟨h, e⟩ | ⟨h, e⟩
    · exact .inl ⟨decide_eq_true h, e⟩
    · exact .inr ⟨decide_eq_false h, _, rfl, e⟩
  | shiftRight reg address =>
    rcases exec_shiftRight_cases reg address s with ⟨h, e⟩ | ⟨h, e⟩
    · exact .inl ⟨decide_eq_true h, e⟩
    · exact .inr ⟨decide_eq_false h, _, rfl, e⟩

/-- An instruction that completes does its write and advances pc, and nothing more. -/
theorem exec_of_completes {i : Instr} {s : State} (h : i.completesIn s = true) :
    exec i s = .next (i.writeResult s).retire := by
  rcases exec_cases i s with ⟨-, e⟩ | ⟨hf, -⟩
  · exact e
  · simp [h] at hf

/-- An instruction that does not complete aborts at pc with the address it tried to access. -/
theorem exec_of_not_completes {i : Instr} {s : State} (h : i.completesIn s = false) :
    ∃ a, i.accessAddress s = some a ∧ exec i s = .next (s.abort ⟨s.pc, a⟩) := by
  rcases exec_cases i s with ⟨ht, -⟩ | ⟨-, e⟩
  · simp [h] at ht
  · exact e

/-- No instruction reads pc (R14): from two states that differ in pc alone it leaves the same registers and the same
memory, whether it completes or aborts. -/
theorem exec_regs_mem_withPc (i : Instr) (s : State) (k : Nat) :
    ∃ t t', exec i s = .next t ∧ exec i { s with pc := k } = .next t' ∧ t'.regs = t.regs ∧ t'.mem = t.mem := by
  have hk := i.completesIn_withPc s k
  cases h : i.completesIn s with
  | true => exact ⟨_, _, exec_of_completes h, exec_of_completes (hk.trans h), by simp, by simp⟩
  | false =>
    obtain ⟨_, -, e⟩ := exec_of_not_completes h
    obtain ⟨_, -, e'⟩ := exec_of_not_completes (hk.trans h)
    exact ⟨_, _, e, e', rfl, rfl⟩

/-- Settles O32: the two ends of an instruction give the two clauses about pc, and the third is that neither end reads
it. -/
theorem pcAdvancesByExactlyOne : Obligations.PcAdvancesByExactlyOne := by
  intro i s k
  refine ⟨fun h => ?completes, fun h => ?aborts, exec_regs_mem_withPc i s k⟩
  case completes => exact ⟨_, exec_of_completes h, by simp⟩
  case aborts =>
    obtain ⟨_, -, e⟩ := exec_of_not_completes h
    exact ⟨_, e, rfl⟩

end Machine

end Sys2Proof
end

section
/-! SUPPORT. Memory and the program store (R34, R35, R42): the checks of the two access primitives, and what keeps a
store away from what is fetched. -/

namespace Sys2Proof.Machine

/-! ### The two access primitives -/

/-- Settles O16: an access is either at or above MEM_SIZE or in bounds, and `memRead` has one law for each. -/
theorem memReadChecksThenReads : Obligations.MemReadChecksThenReads := by
  intro s a
  exact ⟨fun high => State.memRead_outOfBounds (Nat.not_lt.2 high), State.memRead_inBounds⟩

/-- Settles O17: `memWrite` in bounds is `setCell`, whose laws say what it writes and what it leaves. -/
theorem memWriteChecksThenWritesOneCell : Obligations.MemWriteChecksThenWritesOneCell := by
  intro s a v
  refine ⟨fun high => State.memWrite_outOfBounds (Nat.not_lt.2 high) v, fun low => ?_⟩
  have other_cells : ∀ b : Nat, b ≠ a.toNat → (s.setCell a.toNat v).cell b = s.cell b :=
    fun _ => s.setCell_cell_other v
  exact ⟨_, State.memWrite_inBounds low v, s.setCell_cell_same _ v, other_cells, by simp⟩

/-! ### What a run and a request of the host keep -/

/-- What every step keeps, any number of steps keeps, wherever they stop. -/
theorem runSteps_keeps {P : State → Prop} (step_keeps : ∀ u v, step u = .next v → P u → P v) (n : Nat) {s : State}
    (hs : P s) : P (runSteps n s) := by
  induction n generalizing s with
  | zero => exact hs
  | succ n ih =>
    cases h : step s with
    | next t => simpa [runSteps, h] using ih (step_keeps s t h hs)
    | fault => simpa [runSteps, h] using hs
    | refused => simpa [runSteps, h] using hs

theorem State.run_keeps {P : State → Prop} (step_keeps : ∀ u v, step u = .next v → P u → P v) {s : State} (hs : P s) :
    P s.run :=
  runSteps_keeps step_keeps _ hs

/-- Every way a request can change the state: a load, a step or a run; any other request leaves the state as it is. -/
theorem State.serve_cases {s t : State} {q : Request} {a : Response} (h : s.serve q = .next (t, a)) :
    (∃ stream, q = .load stream ∧ t = s.load stream) ∨ (q = .step ∧ step s = .next t) ∨ (q = .run ∧ t = s.run) ∨
      t = s := by
  cases q with
  | load stream => cases h; exact .inl ⟨stream, rfl, rfl⟩
  | step =>
    cases e : step s <;> simp only [State.serve, e] at h <;> cases h
    exact .inr (.inl ⟨rfl, rfl⟩)
  | run => cases h; exact .inr (.inr (.inl ⟨rfl, rfl⟩))
  | status => cases h; exact .inr (.inr (.inr rfl))
  | snapshot =>
    cases e : s.snapshot <;> simp only [State.serve, e] at h <;> cases h
    exact .inr (.inr (.inr rfl))
  | dump start stop =>
    cases e : s.dump start stop <;> simp only [State.serve, e] at h <;> cases h
    exact .inr (.inr (.inr rfl))

/-- What every step keeps, every request but a load keeps. -/
theorem State.serve_keeps {P : State → Prop} (step_keeps : ∀ u v, step u = .next v → P u → P v) {s t : State}
    {q : Request} {a : Response} (h : s.serve q = .next (t, a)) (not_load : ∀ stream, q ≠ .load stream) (hs : P s) :
    P t := by
  rcases State.serve_cases h with ⟨stream, rfl, -⟩ | ⟨-, hstep⟩ | ⟨-, rfl⟩ | rfl
  · exact absurd rfl (not_load stream)
  · exact step_keeps s t hstep hs
  · exact State.run_keeps step_keeps hs
  · exact hs

/-! ### The program store and the parameters -/

/-- `t` fetches from the same program as `s`, under the same parameters. -/
def State.SameProgram (s t : State) : Prop := t.program = s.program ∧ t.cfg = s.cfg

/-- However an instruction ends, it has written a register, a cell of memory or the status, and none of them is part of
the program store. -/
theorem Ends.sameProgram {s t : State} (h : Ends s t) : s.SameProgram t := by
  cases h with
  | wroteReg r v => exact ⟨rfl, rfl⟩
  | wroteCell a v _ => exact ⟨rfl, rfl⟩
  | aborted a _ => exact ⟨rfl, rfl⟩

theorem step_sameProgram {s t : State} (h : step s = .next t) : s.SameProgram t := by
  obtain ⟨-, -, ends⟩ := step_ends h
  exact ends.sameProgram

theorem State.SameProgram.trans {s t u : State} (h : s.SameProgram t) (h' : t.SameProgram u) : s.SameProgram u :=
  ⟨h'.1.trans h.1, h'.2.trans h.2⟩

/-- Settles O36: every step keeps the program and the parameters, and so does every request but a load. -/
theorem onlyALoadChangesTheProgram : Obligations.OnlyALoadChangesTheProgram := by
  intro s t q a h not_load
  exact State.serve_keeps (P := s.SameProgram) (fun _ _ hstep same => same.trans (step_sameProgram hstep)) h not_load
    ⟨rfl, rfl⟩

end Sys2Proof.Machine
end

section
/-! SUPPORT. The encoder's bytes and what the decoder answers to them (R51, R57, R60, R61): the bytes of a field, the kind
that a tag selects, and a program's encoding at the start of a longer stream. -/

namespace Sys2Proof

open Machine

/-! ### The encoder's bytes -/

/-- Byte `k` of a field is its bits from `8 * k` on (R56). -/
theorem byteOf_toNat {n : Nat} (v : BitVec n) (k : Nat) : byteOf v.toNat k = v.extractLsb' (8 * k) 8 := by
  apply BitVec.eq_of_toNat_eq
  rw [byteOf, BitVec.toNat_ofNat, BitVec.extractLsb'_toNat, Nat.shiftRight_eq_div_pow, Nat.pow_mul]

/-- The four bytes of an address are those of the same number in 32 bits. -/
theorem byteOf_address (a : BitVec 30) (k : Nat) : byteOf a.toNat k = (a.setWidth 32).extractLsb' (8 * k) 8 := by
  rw [← byteOf_toNat, BitVec.toNat_setWidth_of_le (by decide)]

/-- The two top bits of the first address byte are 0 (R55). -/
theorem address_topByte_le (a : BitVec 30) : ((a.setWidth 32).extractLsb' 24 8).toNat ≤ 0x3F := by
  rw [BitVec.extractLsb'_toNat, BitVec.toNat_setWidth_of_le (by decide), Nat.shiftRight_eq_div_pow]
  have := a.isLt
  omega

theorem byteOf_reg (r : RegIndex) : byteOf r.val 0 = BitVec.ofNat 8 r.val := by simp [byteOf]

theorem encodeProgram_cons (t : Tags) (i : Instr) (p : List Instr) :
    encodeProgram t (i :: p) = encode t i ++ encodeProgram t p := List.flatMap_cons

/-- Settles O2: format by format, the bytes of each field are its bits between the byte boundaries. -/
theorem encodeWritesTheFormatBytes : Obligations.EncodeWritesTheFormatBytes := by
  intro t
  refine ⟨fun reg value => ?loadConst, fun dst addr => ?readMem, fun src addr => ?writeMem,
    fun reg address => ⟨?shiftRight, address_topByte_le address⟩, rfl, encodeProgram_cons t⟩
  case loadConst => simp only [encode, byteOf_reg, byteOf_toNat]
  case readMem => simp only [encode, byteOf_reg]
  case writeMem => simp only [encode, byteOf_reg]
  case shiftRight => simp only [encode, byteOf_reg, byteOf_address]

/-- The bytes of a constant read back as the constant. -/
theorem constField_byteOf (v : BitVec 24) :
    constField (byteOf v.toNat 2) (byteOf v.toNat 1) (byteOf v.toNat 0) = v := by
  have := v.isLt
  apply BitVec.eq_of_toNat_eq
  simp only [constField, beNat_three, byteOf, BitVec.toNat_ofNat]
  omega

/-- The bytes of an address read back as the address, inside its range. -/
theorem addressField_byteOf (o : Nat) (a : BitVec 30) :
    addressField o (byteOf a.toNat 3) (byteOf a.toNat 2) (byteOf a.toNat 1) (byteOf a.toNat 0) = .ok a := by
  have := a.isLt
  have number : beNat [byteOf a.toNat 3, byteOf a.toNat 2, byteOf a.toNat 1, byteOf a.toNat 0] = a.toNat := by
    simp only [beNat_four, byteOf, BitVec.toNat_ofNat]
    omega
  simp only [addressField, number, BitVec.ofNat_toNat, BitVec.setWidth_eq]
  exact if_pos (by omega)

/-! ### The kind that a tag selects -/

/-- The kind that a tag selects, the kinds tried in the decoder's order; `decodeOne_ok_kindOf` ties it to `decodeOne`. -/
def Tags.kindOf (t : Tags) (tag : Byte) : Option Kind :=
  [Kind.loadConst, .readMem, .writeMem, .shiftRight].find? (fun k => tag = t.ofKind k)

theorem bind_eq_ok_iff {ε α β : Type} {x : Except ε α} {f : α → Except ε β} {b : β} :
    x >>= f = .ok b ↔ ∃ a, x = .ok a ∧ f a = .ok b := by
  cases x <;> simp [bind, Except.bind]

/-- What is decoded is of the kind that the tag selects, even where the tags are not distinct. -/
theorem decodeOne_ok_kindOf {t : Tags} {o : Nat} {tag : Byte} {rest : List Byte} {i : Instr} {w : Nat}
    (h : decodeOne t o tag rest = .ok (i, w)) : t.kindOf tag = some i.kind := by
  unfold decodeOne at h
  split_ifs at h with lc rm wm shr <;> split at h <;> simp only [bind_eq_ok_iff, reduceCtorEq] at h
  · subst lc
    obtain ⟨_, -, ⟨⟩⟩ := h
    simp [Tags.kindOf, Tags.ofKind, Instr.kind]
  · subst rm
    obtain ⟨_, -, _, -, ⟨⟩⟩ := h
    simp [Tags.kindOf, Tags.ofKind, lc, Instr.kind]
  · subst wm
    obtain ⟨_, -, _, -, ⟨⟩⟩ := h
    simp [Tags.kindOf, Tags.ofKind, lc, rm, Instr.kind]
  · subst shr
    obtain ⟨_, -, _, -, ⟨⟩⟩ := h
    simp [Tags.kindOf, Tags.ofKind, lc, rm, wm, Instr.kind]

/-- Settles O6: the width of what is decoded is the length of its kind, and the first byte selects the kind. -/
theorem lengthDependsOnTheKind : Obligations.LengthDependsOnTheKind := by
  intro t
  refine ⟨fun _ _ => rfl, fun _ _ => rfl, fun _ _ => rfl, fun _ _ => rfl, ?consumed, ?first_byte⟩
  case consumed =>
    intro offset tag rest i width h
    obtain ⟨htag, hwidth, suffix, stream⟩ := decodeOne_ok h
    have lengths := congrArg List.length stream
    simp only [List.length_cons, List.length_append, encode_length] at lengths
    exact ⟨htag, by rw [hwidth, encode_length], by omega⟩
  case first_byte =>
    intro o o' tag rest rest' i i' w w' h h'
    obtain ⟨-, hw, -⟩ := decodeOne_ok h
    obtain ⟨-, hw', -⟩ := decodeOne_ok h'
    have kinds : some i.kind = some i'.kind := by rw [← decodeOne_ok_kindOf h, ← decodeOne_ok_kindOf h']
    rw [hw, hw', Option.some.inj kinds]

/-! ### What the decoder answers to a tag -/

/-- The six inequalities that distinct tags stand for, each the way round in which `decodeOne` tests it. -/
theorem Tags.distinct.ne {t : Tags} (h : t.distinct) :
    t.readMem ≠ t.loadConst ∧ t.writeMem ≠ t.loadConst ∧ t.writeMem ≠ t.readMem ∧
      t.shiftRight ≠ t.loadConst ∧ t.shiftRight ≠ t.readMem ∧ t.shiftRight ≠ t.writeMem := by
  simp only [Tags.distinct, List.nodup_cons, List.mem_cons, List.not_mem_nil, or_false, not_or] at h
  obtain ⟨⟨lr, lw, ls⟩, ⟨rm_wm, rs⟩, ws, -⟩ := h
  exact ⟨Ne.symm lr, Ne.symm lw, Ne.symm rm_wm, Ne.symm ls, Ne.symm rs, Ne.symm ws⟩

/-- A byte that is no tag is refused (R60). -/
theorem decodeOne_unknownTag {t : Tags} {tag : Byte} (no_tag : ∀ k : Kind, tag ≠ t.ofKind k) (o : Nat)
    (rest : List Byte) : decodeOne t o tag rest = .error (.unknownTag o tag) := by
  have lc : tag ≠ t.loadConst := no_tag .loadConst
  have rm : tag ≠ t.readMem := no_tag .readMem
  have wm : tag ≠ t.writeMem := no_tag .writeMem
  have shr : tag ≠ t.shiftRight := no_tag .shiftRight
  simp only [decodeOne, lc, rm, wm, shr, if_false]

/-- A tag with fewer bytes behind it than its kind needs is refused before any field is read (R61). For each kind the
argument is the same: the tag selects the kind, and the pattern with all its field bytes does not match. -/
theorem decodeOne_truncated {t : Tags} (h : t.distinct) {k : Kind} {rest : List Byte}
    (short : rest.length + 1 < k.length) (o : Nat) :
    decodeOne t o (t.ofKind k) rest = .error (.truncated o (t.ofKind k) k.length (rest.length + 1)) := by
  obtain ⟨rl, wl, wr, sl, sr, sw⟩ := h.ne
  cases k
  all_goals
    simp only [decodeOne, Tags.ofKind, rl, wl, wr, sl, sr, sw, if_true, if_false]
    split
    · simp only [Kind.length, List.length_cons] at short
      omega
    · rfl

/-- The encoding of an instruction decodes to the instruction, whatever stands behind it. -/
theorem decodeOne_encode {t : Tags} (h : t.distinct) (i : Instr) (o : Nat) (suffix : List Byte) :
    decodeOne t o (t.ofKind i.kind) ((encode t i).tail ++ suffix) = .ok (i, i.kind.length) := by
  obtain ⟨rl, wl, wr, sl, sr, sw⟩ := h.ne
  cases i with
  | loadConst reg value =>
    simp [decodeOne, encode, Tags.ofKind, Instr.kind, regField_byteOf, constField_byteOf, bind, Except.bind, pure,
      Except.pure, Kind.length]
  | readMem dst addr =>
    simp [decodeOne, encode, Tags.ofKind, Instr.kind, rl, regField_byteOf, bind, Except.bind, pure, Except.pure,
      Kind.length]
  | writeMem src addr =>
    simp [decodeOne, encode, Tags.ofKind, Instr.kind, wl, wr, regField_byteOf, bind, Except.bind, pure, Except.pure,
      Kind.length]
  | shiftRight reg address =>
    simp [decodeOne, encode, Tags.ofKind, Instr.kind, sl, sr, sw, regField_byteOf, addressField_byteOf, bind,
      Except.bind, pure, Except.pure, Kind.length]

/-! ### A program's encoding at the start of a stream -/

theorem encode_eq_cons (t : Tags) (i : Instr) : encode t i = t.ofKind i.kind :: (encode t i).tail := by
  cases i <;> rfl

/-- The scan passes over the encoding of an instruction and goes on behind it. -/
theorem decodeFrom_encode_append {t : Tags} (h : t.distinct) (i : Instr) (o : Nat) (rest : List Byte) :
    decodeFrom t o 0 (encode t i ++ rest) =
      (decodeFrom t (o + (encode t i).length) 0 rest).bind (fun is => .ok (i :: is)) := by
  have past : (encode t i ++ rest).drop i.kind.length = rest := by rw [← encode_length t i, List.drop_left]
  rw [encode_eq_cons, List.cons_append] at past ⊢
  rw [decodeFrom_cons (decodeOne_encode h i o rest), past, ← encode_eq_cons, encode_length]

/-- The scan passes over the encoding of a program and goes on behind it, at the offset that is its length. -/
theorem decodeFrom_encodeProgram_append {t : Tags} (h : t.distinct) (p : List Instr) (o : Nat) (rest : List Byte) :
    decodeFrom t o 0 (encodeProgram t p ++ rest) =
      (decodeFrom t (o + (encodeProgram t p).length) 0 rest).bind (fun is => .ok (p ++ is)) := by
  induction p generalizing o with
  | nil =>
    simp only [encodeProgram, List.flatMap_nil, List.nil_append, List.length_nil, Nat.add_zero]
    cases decodeFrom t o 0 rest <;> rfl
  | cons i p ih =>
    rw [encodeProgram_cons, List.append_assoc, decodeFrom_encode_append h, ih, List.length_append, ← Nat.add_assoc]
    cases decodeFrom t (o + (encode t i).length + (encodeProgram t p).length) 0 rest <;> rfl

/-- What does not decode behind a program's encoding is the error of the whole stream (R59). -/
theorem decodeProgram_error_after {t : Tags} (h : t.distinct) (p : List Instr) {b : Byte} {rest : List Byte}
    {e : DecodeError} (he : decodeOne t (encodeProgram t p).length b rest = .error e) :
    decodeProgram t (encodeProgram t p ++ b :: rest) = .error e := by
  rw [decodeProgram, decodeFrom_encodeProgram_append h, Nat.zero_add, decodeFrom_error he]
  rfl

namespace Machine

/-- A load whose stream has an error behind a program's encoding fails with it (R90). -/
theorem State.load_error_after {s : State} (h : s.cfg.tags.distinct) (p : List Instr) {b : Byte} {rest : List Byte}
    {e : DecodeError} (he : decodeOne s.cfg.tags (encodeProgram s.cfg.tags p).length b rest = .error e) :
    (s.load (encodeProgram s.cfg.tags p ++ b :: rest)).status = .loadFailed e := by
  rw [State.load, decodeProgram_error_after h p he]

/-- Nothing runs after a failed load (R91, D10). -/
theorem step_of_loadFailed {s : State} {e : DecodeError} (h : s.status = .loadFailed e) :
    step s = .refused (.stepNotEnabled (.loadFailed e)) := by
  rw [step, h]

/-- The bytes that are none of the reference tags 0x01 to 0x04. -/
theorem not_referenceTag_iff (b : Byte) : (∀ k : Kind, b ≠ referenceTags.ofKind k) ↔ b = 0x00#8 ∨ 0x05 ≤ b.toNat := by
  constructor
  · intro no_tag
    have lc : b ≠ 0x01#8 := no_tag .loadConst
    have rm : b ≠ 0x02#8 := no_tag .readMem
    have wm : b ≠ 0x03#8 := no_tag .writeMem
    have shr : b ≠ 0x04#8 := no_tag .shiftRight
    bv_omega
  · intro outside k
    have tag_range : 1 ≤ (referenceTags.ofKind k).toNat ∧ (referenceTags.ofKind k).toNat ≤ 4 := by cases k <;> decide
    bv_omega

/-- Settles O7: the byte is refused where the scan reaches it, behind the program; the load keeps that error and a step is
refused. The reference tags are the four values 1 to 4. -/
theorem unknownTagFailsTheLoad : Obligations.UnknownTagFailsTheLoad := by
  refine ⟨fun s p b rest distinct no_tag => ?_, not_referenceTag_iff, by decide⟩
  have failed := State.load_error_after distinct p (decodeOne_unknownTag no_tag _ rest)
  exact ⟨_, _, failed, step_of_loadFailed failed⟩

/-- Settles O8: the instruction that is cut off is refused where the scan reaches it, behind the program. -/
theorem truncatedStreamFailsTheLoad : Obligations.TruncatedStreamFailsTheLoad := by
  intro s p k fields distinct short
  exact ⟨_, _, _, _, State.load_error_after distinct p (decodeOne_truncated distinct short _)⟩

end Machine

/-! ### The operand count of a line -/

/-- The Instruction Model names both counts where there are not two operands, whatever the kind. -/
theorem Candidate.validate_wrong_count (k : Kind) {ns : List Nat} (h : ns.length ≠ 2) :
    Candidate.validate ⟨k, ns⟩ = .error (.arity 2 ns.length) := by
  match ns, h with
  | [], _ => cases k <;> rfl
  | [_], _ => cases k <;> rfl
  | [_, _], h => exact absurd rfl h
  | _ :: _ :: _ :: _, _ => cases k <;> rfl

/-- Reading every token gives as many numbers as there are tokens. -/
theorem length_of_mapM_eq_some {α β : Type} {f : α → Option β} {l : List α} {l' : List β} (h : l.mapM f = some l') :
    l'.length = l.length := by
  induction l generalizing l' with
  | nil => cases h; rfl
  | cons a l ih =>
    simp only [List.mapM_cons, Option.bind_eq_bind, Option.bind_eq_some_iff] at h
    obtain ⟨b, -, bs, hbs, ⟨⟩⟩ := h
    rw [List.length_cons, List.length_cons, ih hbs]

/-- After the checks of the operands' syntax and of the mnemonic, the Instruction Model's error is the line's (R77). -/
theorem assembleLine_of_error {line mnemonic : List Char} {remainder : List (List Char)} {k : Kind} {ns : List Nat}
    {e : ValidationError} (tokens : lineTokens (stripLine line) = mnemonic :: remainder)
    (kind : kindOfMnemonic mnemonic = some k) (numbers : (operandTokens remainder).mapM parseInteger = some ns)
    (refused : Candidate.validate ⟨k, ns⟩ = .error e) : assembleLine line = .error e.toParseError := by
  simp only [assembleLine, tokens, assembleTokens, numbers, kind, refused]

/-- Settles O14: there are as many numbers as operand tokens, and the Instruction Model refuses their count. -/
theorem wrongOperandCountIsReported : Obligations.WrongOperandCountIsReported := by
  intro line mnemonic remainder k ns tokens kind numbers count
  have lengths := length_of_mapM_eq_some numbers
  rw [← lengths] at count ⊢
  exact assembleLine_of_error tokens kind numbers (Candidate.validate_wrong_count k count)

end Sys2Proof
end

section
/-! SUPPORT. The halt (R94): a status that agrees with pc and N holds after every load and is kept by every step, so it
holds in every reachable state. -/

namespace Sys2Proof.Machine

/-- An instruction that completes in `Loaded` before the end leaves pc at most N, and the status says whether it is N. -/
theorem State.retire_coherent {s : State} (loaded : s.status = .loaded) (before_end : s.pc < s.count) :
    s.retire.coherent := by
  have status : s.retire.status = haltAt (s.pc + 1) s.count .loaded := by rw [State.retire_status, loaded]
  rcases haltAt_cases (pc := s.pc + 1) (count := s.count) with ⟨at_end, halts⟩ | ⟨not_end, stays⟩
  · exact (State.coherent_halted (status.trans halts)).2 at_end
  · exact (State.coherent_loaded (status.trans stays)).2 (Nat.lt_of_le_of_ne before_end not_end)

/-- An abort inside the program, on an address that is not allocated, keeps its record in the status (R137). -/
theorem State.abort_coherent {s : State} {a : Word} (before_end : s.pc < s.count) (high : ¬ s.inBounds a) :
    (s.abort ⟨s.pc, a⟩).coherent :=
  (State.coherent_aborted rfl).2 ⟨rfl, before_end, Nat.not_lt.1 high⟩

/-- A step leaves a coherent state, whatever the state before it. -/
theorem step_coherent {s t : State} (h : step s = .next t) : t.coherent := by
  obtain ⟨loaded, before_end, ends⟩ := step_ends h
  cases ends with
  | wroteReg r v => exact State.retire_coherent loaded before_end
  | wroteCell a v _ => exact State.retire_coherent loaded before_end
  | aborted a high => exact State.abort_coherent before_end high

theorem State.fresh_coherent (cfg : Config) (p : List Instr) : (State.fresh cfg p).coherent := by
  cases p with
  | nil => exact (State.coherent_halted rfl).2 rfl
  | cons i p => exact (State.coherent_loaded rfl).2 (Nat.succ_pos _)

/-- A load leaves a coherent state: a fresh one, or `LoadFailed`, which says nothing of pc and N. -/
theorem State.load_coherent (s : State) (stream : List Byte) : (s.load stream).coherent := by
  rcases s.load_cases stream with ⟨p, -, fresh⟩ | ⟨e, -, failed, -⟩
  · rw [fresh]
    exact State.fresh_coherent s.cfg p
  · rw [State.coherent, failed, Status.fits]

theorem Reachable.coherent {c : Config} {s : State} (h : Reachable c s) : s.coherent := by
  cases h with
  | load s stream _ => exact s.load_coherent stream
  | step s t _ hstep => exact step_coherent hstep

/-- In a coherent state `Halted` is the one status, readable and without error, in which pc = N: `Loaded` has pc < N. -/
theorem State.coherent.halted_iff {s : State} (h : s.coherent) :
    s.status = .halted ↔ s.pc = s.count ∧ s.status.readable = true ∧ ∀ e, s.status ≠ .aborted e := by
  cases status : s.status with
  | loaded => simp [((State.coherent_loaded status).1 h).ne]
  | halted => simp [(State.coherent_halted status).1 h, Status.readable]
  | loadFailed e => simp [Status.readable]
  | aborted e => simp

/-- No step is enabled outside `Loaded` (R91, D19). -/
theorem step_of_not_loaded {s : State} (h : s.status ≠ .loaded) : step s = .refused (.stepNotEnabled s.status) := by
  cases status : s.status with
  | loaded => exact absurd status h
  | halted | loadFailed _ | aborted _ => rw [step, status]

/-- Where no step is enabled, no request but a load changes the state: a run takes no step either. -/
theorem State.serve_eq_of_not_loaded {s t : State} {q : Request} {a : Response} (h : s.status ≠ .loaded)
    (served : s.serve q = .next (t, a)) (not_load : ∀ stream, q ≠ .load stream) : t = s := by
  refine State.serve_keeps (P := (· = s)) (fun u v hstep same => ?_) served not_load rfl
  obtain ⟨loaded, -⟩ := step_next hstep
  exact absurd (same ▸ loaded) h

/-- Settles O37: every reachable state is coherent, and `Halted` is not `Loaded`, so nothing but a load leaves it. -/
theorem haltedExactlyAtTheEnd : Obligations.HaltedExactlyAtTheEnd := by
  intro c s reachable
  refine ⟨reachable.coherent.halted_iff, fun halted => ?_⟩
  have not_loaded : s.status ≠ .loaded := by simp [halted]
  exact ⟨halted ▸ step_of_not_loaded not_loaded, fun _ _ _ => State.serve_eq_of_not_loaded not_loaded⟩

end Sys2Proof.Machine
end

section
/-! SUPPORT. LOAD_CONST (R110): the constant as a word, what the instruction leaves in the state, and the operands that the
Instruction Model accepts for it. -/

namespace Sys2Proof

/-! ### The range checks of the Instruction Model -/

/-- A register check that passes gives the number itself, never a clamped one (R66). -/
theorem checkReg_eq_ok_iff {f : Field} {v : Nat} {r : RegIndex} : checkReg f v = .ok r ↔ v = r.val := by
  constructor
  · intro h
    unfold checkReg at h
    split at h <;> cases h
    rfl
  · rintro rfl
    exact Laws.checkReg_ok f r

/-- A width check that passes gives the number itself, never a truncated one (R66). -/
theorem checkBits_eq_ok_iff {f : Field} {width v : Nat} {x : BitVec width} :
    checkBits f width v = .ok x ↔ v = x.toNat := by
  constructor
  · intro h
    unfold checkBits at h
    split at h <;> cases h
    next below => exact (BitVec.toNat_ofNat v width ▸ Nat.mod_eq_of_lt below).symm
  · rintro rfl
    exact Laws.checkBits_ok f x

/-- What the Instruction Model accepts as a LOAD_CONST are the operands of one. -/
theorem validate_loadConst_ok {a b : Nat} {i : Instr} (h : Candidate.validate ⟨.loadConst, [a, b]⟩ = .ok i) :
    ∃ (reg : RegIndex) (value : BitVec 24), a = reg.val ∧ b = value.toNat ∧ i = .loadConst reg value := by
  simp only [Candidate.validate, bind_eq_ok_iff] at h
  obtain ⟨reg, reg_ok, value, value_ok, ⟨⟩⟩ := h
  exact ⟨reg, value, checkReg_eq_ok_iff.1 reg_ok, checkBits_eq_ok_iff.1 value_ok, rfl⟩

/-- An index above 31 or a constant above 2^24 - 1 makes no LOAD_CONST (R110). -/
theorem validate_loadConst_outOfRange {a b : Nat} (outside : 31 < a ∨ 16777215 < b) (i : Instr) :
    Candidate.validate ⟨.loadConst, [a, b]⟩ ≠ .ok i := by
  intro accepted
  obtain ⟨reg, value, rfl, rfl, -⟩ := validate_loadConst_ok accepted
  have reg_range := reg.isLt
  have value_range := value.isLt
  omega

namespace Machine

/-! ### The constant as a word -/

@[simp] theorem constOperand_toNat (value : BitVec 24) : (constOperand value).toNat = value.toNat :=
  BitVec.toNat_setWidth_of_le (by decide)

/-- Bits 31:24 of the word are 0 (R110). -/
theorem constOperand_high_bits (value : BitVec 24) {k : Nat} (h : 24 ≤ k) : (constOperand value).getLsbD k = false := by
  rw [constOperand, BitVec.getLsbD_setWidth, BitVec.getLsbD_of_ge value k h, Bool.and_false]

/-! ### The instruction -/

/-- Settles O24: LOAD_CONST writes the constant's word to its register and retires, so the laws of `setReg` and `retire`
give the state it leaves; its bytes are O2's; and what the Instruction Model accepts lies in the two ranges. -/
theorem loadConstResult : Obligations.LoadConstResult := by
  refine ⟨fun reg value s => ⟨_, exec_loadConst reg value s, ?state⟩,
    fun t => (encodeWritesTheFormatBytes t).1, fun a b => validate_loadConst_outOfRange⟩
  case state =>
    have written : (s.setReg reg (constOperand value)).retire.getReg reg = constOperand value :=
      s.getReg_setReg_same reg _
    have other_regs : ∀ r : RegIndex, r ≠ reg → (s.setReg reg (constOperand value)).retire.getReg r = s.getReg r :=
      fun r => s.getReg_setReg_other reg r _
    rw [written]
    exact ⟨rfl, constOperand_toNat value, fun _ => constOperand_high_bits value, other_regs, fun _ => rfl, rfl, rfl, rfl,
      rfl⟩

end Machine

end Sys2Proof
end

section
/-! SUPPORT. The shift unit (R126): its value as a number and its bits, each said once. -/

namespace Sys2Proof.Machine

/-- The value law of R126: the shift unit halves and rounds down. -/
@[simp] theorem shiftUnit_toNat (v : Word) : (shiftUnit v).toNat = v.toNat / 2 := by
  rw [shiftUnit, BitVec.toNat_ushiftRight, Nat.shiftRight_one]

/-- Every bit moves down by one place (R126). -/
theorem shiftUnit_getLsbD (v : Word) (k : Nat) : (shiftUnit v).getLsbD k = v.getLsbD (k + 1) := by
  rw [shiftUnit, BitVec.getLsbD_ushiftRight, Nat.add_comm]

/-- A zero enters at bit 31: the shift is logical (R126). -/
theorem shiftUnit_getLsbD_high (v : Word) {k : Nat} (h : 31 ≤ k) : (shiftUnit v).getLsbD k = false := by
  rw [shiftUnit_getLsbD, BitVec.getLsbD_of_ge v (k + 1) (by omega)]

/-- The bound of R126: half of a 32-bit value is below 2^31. -/
theorem shiftUnit_toNat_le (v : Word) : (shiftUnit v).toNat ≤ 2 ^ 31 - 1 := by
  have word_range := v.isLt
  rw [shiftUnit_toNat]
  omega

/-- Halving keeps the value of 0 and of no other word (R126). -/
theorem shiftUnit_toNat_eq_self_iff (v : Word) : (shiftUnit v).toNat = v.toNat ↔ v = 0#32 := by
  have halving_fixes : v.toNat / 2 = v.toNat ↔ v.toNat = 0 := by omega
  rw [shiftUnit_toNat, halving_fixes, ← BitVec.toNat_inj, BitVec.toNat_zero]

/-- Settles O19: the two bit clauses are the laws of the shift unit's bits, and the bounds and the fixed point follow from
its value law. -/
theorem shiftUnitHalves : Obligations.ShiftUnitHalves := fun v =>
  ⟨shiftUnit_toNat v, fun k _ => shiftUnit_getLsbD v k, shiftUnit_getLsbD_high v le_rfl, shiftUnit_toNat_le v,
    (shiftUnit_toNat v).trans_le (Nat.div_le_self _ _), shiftUnit_toNat_eq_self_iff v⟩

end Sys2Proof.Machine
end

section
/-! SUPPORT. Reset and hazards (R160, R165): a successful load leaves the fresh state, and SHR stores over its cell whatever
that cell held. -/

namespace Sys2Proof.Machine

/-! ### The load as the reset -/

/-- A load of a stream that decodes takes no more than the parameters from the state before it (R160). -/
theorem State.load_of_decodes {s : State} {stream : List Byte} {p : List Instr}
    (h : decodeProgram s.cfg.tags stream = .ok p) : s.load stream = State.fresh s.cfg p := by
  rw [State.load, h]

/-- A fresh engine has no fault record: it is `Halted` or `Loaded` (R160). -/
theorem State.fresh_no_faultRecord (c : Config) (p : List Instr) :
    (∀ e, (State.fresh c p).status ≠ .loadFailed e) ∧ ∀ e, (State.fresh c p).status ≠ .aborted e := by
  cases p with
  | nil => exact ⟨nofun, nofun⟩
  | cons i p => exact ⟨nofun, nofun⟩

/-- Settles O21: the load leaves the fresh state, which the parameters and the program alone decide. -/
theorem successfulLoadIsAFullReset : Obligations.SuccessfulLoadIsAFullReset := by
  intro s s' stream p same_cfg decodes
  have fresh := State.load_of_decodes decodes
  have fresh' : s'.load stream = State.fresh s.cfg p :=
    same_cfg ▸ State.load_of_decodes (same_cfg.symm ▸ decodes)
  rw [fresh, fresh']
  obtain ⟨not_failed, not_aborted⟩ := State.fresh_no_faultRecord s.cfg p
  exact ⟨fun r => State.fresh_getReg r s.cfg p, fun a => State.fresh_cell a s.cfg p, rfl, rfl, not_failed, not_aborted,
    rfl⟩

/-! ### The store over an old cell -/

/-- A store hides what its cell held: states that agree on the other cells agree on every cell after it (R35). -/
theorem State.setCell_cell_congr {s s' : State} {a : Nat} (v : Word) (others : ∀ b, b ≠ a → s'.cell b = s.cell b)
    (b : Nat) : (s'.setCell a v).cell b = (s.setCell a v).cell b := by
  by_cases h : b = a
  · rw [h, State.setCell_cell_same, State.setCell_cell_same]
  · rw [State.setCell_cell_other _ v h, State.setCell_cell_other _ v h, others b h]

theorem exec_shiftRight_inBounds {address : BitVec 30} {s : State} (low : s.inBounds (literalAddress address))
    (reg : RegIndex) : exec (.shiftRight reg address) s =
      .next (s.setCell (literalAddress address).toNat (shiftUnit (s.getReg reg))).retire :=
  exec_of_completes (i := .shiftRight reg address) (decide_eq_true low)

/-- SHR does not read the cell it writes (R165): from a state that has the same register and the same other cells as `s`,
it leaves the memory that it leaves from `s`. -/
theorem exec_shiftRight_cells_congr {reg : RegIndex} {address : BitVec 30} {s s' : State}
    (low : s'.inBounds (literalAddress address)) (same_reg : s'.getReg reg = s.getReg reg)
    (others : ∀ b, b ≠ (literalAddress address).toNat → s'.cell b = s.cell b) :
    ∃ t', exec (.shiftRight reg address) s' = .next t' ∧
      ∀ b : Nat, t'.cell b = (s.setCell (literalAddress address).toNat (shiftUnit (s.getReg reg))).cell b := by
  refine ⟨_, exec_shiftRight_inBounds low reg, fun b => ?_⟩
  rw [State.retire_cell, same_reg]
  exact State.setCell_cell_congr _ others b

/-- Settles O29: another old content of the cell and a first SHR both change that cell alone, so SHR leaves the same
memory from either. -/
theorem repeatedShiftDoesNotAccumulate : Obligations.RepeatedShiftDoesNotAccumulate := by
  intro reg address s old low
  have others_kept : ∀ v b, b ≠ (literalAddress address).toNat →
      (s.setCell (literalAddress address).toNat v).cell b = s.cell b :=
    fun v _ => s.setCell_cell_other v
  have once := exec_shiftRight_inBounds low reg
  obtain ⟨t', from_old, same_cells⟩ := exec_shiftRight_cells_congr (reg := reg) (s := s)
    (s' := s.setCell (literalAddress address).toNat old) low rfl (others_kept old)
  obtain ⟨u, twice, same_again⟩ := exec_shiftRight_cells_congr (reg := reg) (s := s)
    (s' := (s.setCell (literalAddress address).toNat (shiftUnit (s.getReg reg))).retire) low rfl (others_kept _)
  exact ⟨_, t', u, once, from_old, twice, same_cells, same_again⟩

end Sys2Proof.Machine
end

section
/-! SUPPORT. The round trips and the decode errors (R58, R59, R62, R65, R131): what the scan can answer, said once, and
the range checks of the fields. -/

namespace Sys2Proof

open Machine

/-! ### The round trips -/

/-- Settles O3: the bytes behind the tag decode to the instruction, whatever follows them. -/
theorem decodeInvertsEncode : Obligations.DecodeInvertsEncode := by
  intro t i offset suffix distinct
  exact ⟨(encode t i).tail, encode_eq_cons t i, by rw [encode_length]; exact decodeOne_encode distinct i offset suffix⟩

/-- Settles O4: the scan passes over the whole encoding, and nothing is left behind it. -/
theorem decodeProgramInvertsEncodeProgram : Obligations.DecodeProgramInvertsEncodeProgram := by
  intro t p distinct
  have scan := decodeFrom_encodeProgram_append distinct p 0 []
  rw [List.append_nil] at scan
  rw [decodeProgram, scan, decodeFrom, Except.bind, List.append_nil]

/-- Everything the scan can answer when it does not fail: nothing from no bytes, or an instruction whose encoding stands
first, and behind it what the scan answers to the bytes that follow. -/
theorem decodeFrom_ok_cases {t : Tags} {o : Nat} {bytes : List Byte} {p : List Instr}
    (h : decodeFrom t o 0 bytes = .ok p) :
    (bytes = [] ∧ p = []) ∨
      ∃ i is suffix, p = i :: is ∧ bytes = encode t i ++ suffix ∧
        decodeFrom t (o + i.kind.length) 0 suffix = .ok is := by
  cases bytes with
  | nil => cases h; exact .inl ⟨rfl, rfl⟩
  | cons b rest =>
    cases one : decodeOne t o b rest with
    | error e => simp [decodeFrom_error one] at h
    | ok answer =>
      obtain ⟨i, w⟩ := answer
      obtain ⟨-, rfl, suffix, stream⟩ := decodeOne_ok one
      have behind : (b :: rest).drop i.kind.length = suffix := by rw [stream, ← encode_length t i, List.drop_left]
      rw [decodeFrom_cons one, behind] at h
      obtain ⟨is, tail, ⟨⟩⟩ := bind_eq_ok_iff.1 h
      exact .inr ⟨i, is, suffix, rfl, stream, tail⟩

/-- A scan that does not fail has read the encoding of what it answers, and nothing else. -/
theorem encodeProgram_of_decodeFrom {t : Tags} {o : Nat} {bytes : List Byte} {p : List Instr}
    (h : decodeFrom t o 0 bytes = .ok p) : encodeProgram t p = bytes := by
  induction p generalizing o bytes with
  | nil =>
    rcases decodeFrom_ok_cases h with ⟨rfl, -⟩ | ⟨_, _, _, ⟨⟩, -⟩
    rfl
  | cons i p ih =>
    rcases decodeFrom_ok_cases h with ⟨-, ⟨⟩⟩ | ⟨_, _, suffix, ⟨⟩, rfl, tail⟩
    rw [encodeProgram_cons, ih tail]

/-- Settles O5: the scan reads one encoding after the other, by induction on the program. -/
theorem decodedStreamIsItsEncoding : Obligations.DecodedStreamIsItsEncoding :=
  fun _ _ _ => encodeProgram_of_decodeFrom

/-! ### The range checks of the fields -/

theorem regField_of_lt (o : Nat) (f : Field) {b : Byte} (h : b.toNat < 32) : regField o f b = .ok ⟨b.toNat, h⟩ :=
  dif_pos h

theorem regField_of_ge (o : Nat) (f : Field) {b : Byte} (h : 32 ≤ b.toNat) :
    regField o f b = .error (.fieldOutOfRange o f b.toNat) :=
  dif_neg (Nat.not_lt.2 h)

/-- The address is checked as the number of its four bytes (R55, R62). -/
theorem addressField_of_ge (o : Nat) {b3 b2 b1 b0 : Byte}
    (h : 2 ^ 30 ≤ b3.toNat * 16777216 + b2.toNat * 65536 + b1.toNat * 256 + b0.toNat) :
    addressField o b3 b2 b1 b0 =
      .error (.fieldOutOfRange o .address
        (b3.toNat * 16777216 + b2.toNat * 65536 + b1.toNat * 256 + b0.toNat)) := by
  simp only [addressField, beNat_four]
  exact if_neg (by omega)

section Fields

variable {t : Tags} (distinct : t.distinct) (o : Nat) (b1 b2 b3 b4 b5 : Byte) (rest : List Byte)

theorem decodeOne_loadConst : decodeOne t o t.loadConst (b1 :: b2 :: b3 :: b4 :: rest) =
    (regField o .reg b1).bind fun reg => .ok (.loadConst reg (constField b2 b3 b4), 5) := by
  simp only [decodeOne, if_true]
  rfl

include distinct

theorem decodeOne_readMem : decodeOne t o t.readMem (b1 :: b2 :: rest) =
    (regField o .dstReg b1).bind fun dst => (regField o .addrReg b2).bind fun addr => .ok (.readMem dst addr, 3) := by
  obtain ⟨rl, -⟩ := distinct.ne
  simp only [decodeOne, rl, if_true, if_false]
  rfl

theorem decodeOne_writeMem : decodeOne t o t.writeMem (b1 :: b2 :: rest) =
    (regField o .srcReg b1).bind fun src => (regField o .addrReg b2).bind fun addr => .ok (.writeMem src addr, 3) := by
  obtain ⟨-, wl, wr, -⟩ := distinct.ne
  simp only [decodeOne, wl, wr, if_true, if_false]
  rfl

theorem decodeOne_shiftRight : decodeOne t o t.shiftRight (b1 :: b2 :: b3 :: b4 :: b5 :: rest) =
    (regField o .reg b1).bind fun reg =>
      (addressField o b2 b3 b4 b5).bind fun address => .ok (.shiftRight reg address, 6) := by
  obtain ⟨-, -, -, sl, sr, sw⟩ := distinct.ne
  simp only [decodeOne, sl, sr, sw, if_true, if_false]
  rfl

end Fields

/-- Settles O9: the first field is checked before the second, and the check that fails names its field and value. -/
theorem outOfRangeFieldFailsToDecode : Obligations.OutOfRangeFieldFailsToDecode := by
  intro t o b1 b2 b3 b4 b5 rest distinct
  rw [decodeOne_loadConst, decodeOne_readMem distinct, decodeOne_writeMem distinct, decodeOne_shiftRight distinct]
  refine ⟨fun first => ?first_register, fun first second => ?second_register, fun first address => ?address⟩
  case first_register =>
    simp only [regField_of_ge o _ first, Except.bind, and_self]
  case second_register =>
    simp only [regField_of_lt o _ first, regField_of_ge o _ second, Except.bind, and_self]
  case address =>
    simp only [regField_of_lt o _ first, addressField_of_ge o address, Except.bind]

/-! ### The records of the decode errors -/

/-- Settles O10: the decoder's answers to a byte that is no tag and to a tag with too few bytes behind it. -/
theorem decodeErrorsCarryTheirRecord : Obligations.DecodeErrorsCarryTheirRecord := by
  intro t o b rest distinct
  refine ⟨fun no_tag => decodeOne_unknownTag no_tag o rest, ?_⟩
  rintro k rfl short
  exact decodeOne_truncated distinct short o

namespace Machine

/-- Settles O11: the scan passes over the program's encoding and stops behind it, and the load keeps its error. -/
theorem firstErrorStopsTheLoad : Obligations.FirstErrorStopsTheLoad := by
  intro s p b rest e distinct refused
  exact ⟨decodeProgram_error_after distinct p refused, State.load_error_after distinct p refused⟩

/-! ### Table words -/

/-- Settles O1: five words, each evaluated by the decoder. -/
theorem referenceWordsDecode : Obligations.ReferenceWordsDecode := by
  refine ⟨?_, ?_, ?_, ?_, ?_⟩ <;> decide

end Machine

end Sys2Proof
end

section
/-! SUPPORT. The instructions (R12, R115, R116, R125, R132, R137): what each one writes, what it leaves unchanged, which
registers enter it, and when it aborts. -/

namespace Sys2Proof

open Machine

/-! ### The one access of an instruction -/

/-- The one access an instruction makes decides whether it completes (R132). -/
theorem Instr.completesIn_of_access {i : Instr} {s : State} {a : Word} (access : i.accessAddress s = some a) :
    i.completesIn s = decide (s.inBounds a) := by
  rw [Instr.completesIn, access, Option.all_some]

@[simp] theorem Machine.literalAddress_toNat (address : BitVec 30) : (literalAddress address).toNat = address.toNat :=
  BitVec.toNat_setWidth_of_le (by decide)

/-! ### What an instruction that completes leaves unchanged -/

@[simp] theorem Instr.writeResult_cfg (i : Instr) (s : State) : (i.writeResult s).cfg = s.cfg := by
  cases i <;> rfl

@[simp] theorem Instr.writeResult_program (i : Instr) (s : State) : (i.writeResult s).program = s.program := by
  cases i <;> rfl

@[simp] theorem Instr.writeResult_count (i : Instr) (s : State) : (i.writeResult s).count = s.count := by
  cases i <;> rfl

@[simp] theorem Instr.writeResult_status (i : Instr) (s : State) : (i.writeResult s).status = s.status := by
  cases i <;> rfl

/-- Every register but the one R12 lists as written is kept. -/
theorem Instr.writeResult_getReg_other {i : Instr} {r : RegIndex} (h : i.destReg ≠ some r) (s : State) :
    (i.writeResult s).getReg r = s.getReg r := by
  cases i with
  | loadConst reg | readMem reg => exact s.getReg_setReg_other reg r _ fun same => h (congrArg some same.symm)
  | writeMem | shiftRight => rfl

/-- Every cell but the one stored to is kept (R35). -/
theorem Instr.writeResult_cell_other {i : Instr} {s : State} {a : Nat}
    (h : ∀ w : Word, i.storeAddress s = some w → a ≠ w.toNat) : (i.writeResult s).cell a = s.cell a := by
  cases i with
  | loadConst | readMem => rfl
  | writeMem | shiftRight => exact s.setCell_cell_other _ (h _ rfl)

namespace Machine

/-- An access to an address that is not allocated changes the status and nothing else (R137). -/
theorem exec_of_outOfBounds {i : Instr} {s : State} {a : Word} (access : i.accessAddress s = some a)
    (high : s.cfg.memSize ≤ a.toNat) : exec i s = .next { s with status := .aborted ⟨s.pc, a⟩ } := by
  have not_completes : i.completesIn s = false := by
    rw [Instr.completesIn_of_access access]
    exact decide_eq_false (Nat.not_lt.2 high)
  obtain ⟨a', access', aborts⟩ := exec_of_not_completes not_completes
  obtain rfl : a' = a := Option.some.inj (access'.symm.trans access)
  exact aborts

/-- The advance of pc aborts no engine: a status it leaves `Aborted` was so before. -/
theorem haltAt_aborted {pc count : Nat} {st : Status} {e : OutOfBounds} (h : haltAt pc count st = .aborted e) :
    st = .aborted e := by
  unfold haltAt at h
  split at h
  · cases h
  · exact h

/-! ### The results -/

/-- Settles O25: the register write gives the cell, by the laws of `setReg`, and no other field is written. -/
theorem readMemResult : Obligations.ReadMemResult := by
  intro dst addr s low
  have written : (s.setReg dst (s.cell (s.getReg addr).toNat)).getReg dst = s.cell (s.getReg addr).toNat :=
    s.getReg_setReg_same dst _
  exact ⟨_, exec_of_completes (i := .readMem dst addr) (decide_eq_true low), written,
    fun r other => s.getReg_setReg_other dst r _ other, fun _ => rfl, rfl, rfl, rfl, rfl⟩

/-- Settles O26: the store gives the register's value, by the laws of `setCell`, and no other field is written. -/
theorem writeMemResult : Obligations.WriteMemResult := by
  intro src addr s low
  exact ⟨_, exec_of_completes (i := .writeMem src addr) (decide_eq_true low), s.setCell_cell_same _ _,
    fun _ => s.setCell_cell_other _, fun _ => rfl, rfl, rfl, rfl, rfl⟩

/-- Settles O27: the store gives the shift unit's output, whose value is half of the register's. -/
theorem shiftRightResult : Obligations.ShiftRightResult := by
  intro reg address s low
  have stored : ((s.setCell (literalAddress address).toNat (shiftUnit (s.getReg reg))).cell
      (literalAddress address).toNat).toNat = (s.getReg reg).toNat / 2 := by
    rw [s.setCell_cell_same, shiftUnit_toNat]
  exact ⟨literalAddress_toNat address, _, exec_shiftRight_inBounds low reg, stored, fun _ => s.setCell_cell_other _,
    fun _ => rfl, rfl, rfl, rfl, rfl⟩

/-- Settles O28: the three accessing instructions abort out of bounds, and the constant load retires. -/
theorem outOfBoundsAbortsAndChangesNothingElse : Obligations.OutOfBoundsAbortsAndChangesNothingElse := by
  refine ⟨fun dst addr s high => ?readMem, fun src addr s high => ?writeMem, fun reg address s high => ?shiftRight,
    fun reg value s t e run aborted => ?loadConst⟩
  case readMem => exact exec_of_outOfBounds (i := .readMem dst addr) rfl high
  case writeMem => exact exec_of_outOfBounds (i := .writeMem src addr) rfl high
  case shiftRight =>
    exact exec_of_outOfBounds (i := .shiftRight reg address) rfl (high.trans_eq (literalAddress_toNat address).symm)
  case loadConst =>
    rw [exec_loadConst] at run
    cases run
    exact haltAt_aborted aborted

/-- Settles O30: an instruction that completes writes what R12 and R99 list, and one that aborts writes the status. -/
theorem everyInstructionHasItsFrame : Obligations.EveryInstructionHasItsFrame := by
  intro i s
  rcases exec_cases i s with ⟨-, completes⟩ | ⟨-, a, -, aborts⟩
  · exact ⟨_, completes, i.writeResult_cfg s, i.writeResult_program s,
      fun r other => Instr.writeResult_getReg_other other s, fun a other => Instr.writeResult_cell_other other⟩
  · exact ⟨_, aborts, rfl, rfl, fun _ _ => rfl, fun _ _ => rfl⟩

/-! ### The registers that enter an instruction -/

/-- `s'` is `s` but for the registers that `i` does not read (R12). -/
structure State.AgreesFor (i : Instr) (s s' : State) : Prop where
  cfg : s'.cfg = s.cfg
  pc : s'.pc = s.pc
  program : s'.program = s.program
  mem : s'.mem = s.mem
  status : s'.status = s.status
  reads : ∀ r ∈ i.readRegs, s'.getReg r = s.getReg r

namespace State.AgreesFor

variable {i : Instr} {s s' : State} (h : s.AgreesFor i s')

include h

/-- The address register is read, so the address is the same. -/
theorem accessAddress_eq : i.accessAddress s' = i.accessAddress s := by
  cases i with
  | loadConst | shiftRight => rfl
  | readMem _ addr | writeMem _ addr => exact congrArg some (h.reads addr (by simp [Instr.readRegs]))

theorem completesIn_eq : i.completesIn s' = i.completesIn s := by
  simp only [Instr.completesIn, h.accessAddress_eq, State.inBounds, h.cfg]

/-- The address and the value stored come from registers that are read. -/
theorem writeResult_mem : (i.writeResult s').mem = (i.writeResult s).mem := by
  cases i with
  | loadConst | readMem => exact h.mem
  | writeMem src addr =>
    simp only [Instr.writeResult, State.setCell_mem, h.mem, h.reads src (by simp [Instr.readRegs]),
      h.reads addr (by simp [Instr.readRegs])]
  | shiftRight reg =>
    simp only [Instr.writeResult, State.setCell_mem, h.mem, h.reads reg (by simp [Instr.readRegs])]

/-- The value written to a register is the constant, or the cell at an address that is read. -/
theorem writeResult_destReg {r : RegIndex} (dest : i.destReg = some r) :
    (i.writeResult s').getReg r = (i.writeResult s).getReg r := by
  cases i with
  | loadConst reg value => cases dest; simp only [Instr.writeResult, State.getReg_setReg_same]
  | readMem dst addr =>
    cases dest
    simp only [Instr.writeResult, State.getReg_setReg_same, State.cell, h.mem, h.reads addr (by simp [Instr.readRegs])]
  | writeMem | shiftRight => cases dest

theorem retire_status : (i.writeResult s').retire.status = (i.writeResult s).retire.status := by
  simp only [State.retire_status, Instr.writeResult_pc, Instr.writeResult_program, Instr.writeResult_status,
    State.count, h.pc, h.program, h.status]

end State.AgreesFor

/-- Settles O31: states that agree on what is read complete or abort alike, with the same write or the same record. -/
theorem onlyTheListedRegistersAreRead : Obligations.OnlyTheListedRegistersAreRead := by
  intro i s s' cfg pc program mem status reads
  have agrees : s.AgreesFor i s' := ⟨cfg, pc, program, mem, status, reads⟩
  have completes_alike := agrees.completesIn_eq
  cases completes : i.completesIn s with
  | true =>
    have pc_alike : (i.writeResult s').retire.pc = (i.writeResult s).retire.pc := by simp [pc]
    exact ⟨_, _, exec_of_completes completes, exec_of_completes (completes_alike.trans completes),
      agrees.writeResult_mem, pc_alike, agrees.retire_status, fun _ _ => agrees.writeResult_destReg⟩
  | false =>
    obtain ⟨a, access, aborts⟩ := exec_of_not_completes completes
    obtain ⟨a', access', aborts'⟩ := exec_of_not_completes (completes_alike.trans completes)
    obtain rfl : a' = a := Option.some.inj (access'.symm.trans (agrees.accessAddress_eq.trans access))
    exact ⟨_, _, aborts, aborts', mem, pc, by rw [State.abort_status, State.abort_status, pc], nofun⟩

end Machine

end Sys2Proof
end

section
/-! SUPPORT. The sequencer (R91 to R96, R138, R164, R166): one step, two steps in a row, the load before a run, and a run
to its end. -/

namespace Sys2Proof.Machine

/-! ### One step -/

/-- Settles O33: step fetches at pc and dispatches. -/
theorem stepRunsTheFetchedInstruction : Obligations.StepRunsTheFetchedInstruction := by
  intro s i loaded fetched
  simp only [step, loaded, State.fetch, fetched]

theorem runSteps_of_not_loaded {s : State} (h : s.status ≠ .loaded) (n : Nat) : runSteps n s = s := by
  cases n with
  | zero => rfl
  | succ n => rw [runSteps, step_of_not_loaded h]

/-- Settles O35: outside `Loaded` step answers a refusal, at which a run stops. -/
theorem stepIsRefusedOutsideLoaded : Obligations.StepIsRefusedOutsideLoaded :=
  fun _ not_loaded => ⟨step_of_not_loaded not_loaded, runSteps_of_not_loaded not_loaded _⟩

/-- A table word that decodes is decoded by `decodeHead` from its bytes. -/
theorem decodeHead_of_decodeTableWord {nbits w : Nat} {i : Instr} (h : decodeTableWord nbits w = some i) :
    ∃ width, decodeHead referenceTags (tableBytes nbits w) = some (.ok (i, width)) := by
  unfold decodeTableWord at h
  split at h <;> cases h
  next width head => exact ⟨width, head⟩

/-- A table word that decodes changes the program store and the status, and nothing else. -/
theorem State.withFetchWord_of_decodes {s : State} {nbits w : Nat} {i : Instr} (tags : s.cfg.tags = referenceTags)
    (h : decodeTableWord nbits w = some i) :
    s.withFetchWord nbits w = { s with program := placeInstr s.program s.pc i, status := .loaded } := by
  obtain ⟨width, head⟩ := decodeHead_of_decodeTableWord h
  rw [State.withFetchWord, State.placeBytes, tags, head]

/-- The store is filled up to pc, so the instruction placed at pc stands there. -/
theorem getElem?_placeInstr (p : List Instr) (pc : Nat) (i : Instr) : (placeInstr p pc i)[pc]? = some i := by
  have long_enough : pc < (p ++ List.replicate (pc + 1 - p.length) i).length := by
    rw [List.length_append, List.length_replicate]
    omega
  exact List.getElem?_set_self long_enough

/-- Settles O34: placing the word sets the program store at pc and the status, so the next step fetches it. -/
theorem placedWordIsTheNextInstruction : Obligations.PlacedWordIsTheNextInstruction := by
  intro s nbits w i tags decodes
  rw [State.withFetchWord_of_decodes tags decodes]
  exact ⟨stepRunsTheFetchedInstruction _ i rfl (getElem?_placeInstr s.program s.pc i), rfl, rfl, rfl, rfl⟩

/-! ### Two steps in a row -/

/-- Two instructions in a row that complete: the second one starts from what the first one wrote. -/
theorem two_steps {s : State} {i j : Instr} (loaded : s.status = .loaded) (first : s.program[s.pc]? = some i)
    (second : s.program[s.pc + 1]? = some j) (completes : i.completesIn s = true)
    (completes' : j.completesIn (i.writeResult s).retire = true) :
    step s = .next (i.writeResult s).retire ∧
      step (i.writeResult s).retire = .next (j.writeResult (i.writeResult s).retire).retire := by
  have before_end : s.pc + 1 ≠ s.count := (List.getElem?_eq_some_iff.1 second).1.ne
  have still_loaded : (i.writeResult s).retire.status = .loaded := by simp [haltAt_before before_end, loaded]
  have next_fetch : (i.writeResult s).retire.program[(i.writeResult s).retire.pc]? = some j := by simpa using second
  rw [stepRunsTheFetchedInstruction s i loaded first, stepRunsTheFetchedInstruction _ j still_loaded next_fetch]
  exact ⟨exec_of_completes completes, exec_of_completes completes'⟩

/-- Settles O42: in each case the second instruction reads what the first one wrote, by the laws of `setCell` and
`setReg`. -/
theorem nextInstructionSeesTheWrite : Obligations.NextInstructionSeesTheWrite := by
  intro s loaded
  refine ⟨fun src addr dst first second low => ?write_read,
    fun reg addr dst address first second same low => ?shift_read,
    fun reg value address first second low => ?const_shift⟩
  case write_read =>
    obtain ⟨step1, step2⟩ := two_steps loaded first second (decide_eq_true low) (decide_eq_true low)
    refine ⟨_, _, step1, step2, ?_, rfl⟩
    simp [Instr.writeResult]
  case shift_read =>
    have low_literal : (literalAddress address).toNat < s.cfg.memSize := by rwa [literalAddress_toNat]
    have low_register : (registerAddress s addr).toNat < s.cfg.memSize := by rwa [same]
    obtain ⟨step1, step2⟩ :=
      two_steps loaded first second (decide_eq_true low_literal) (decide_eq_true low_register)
    refine ⟨_, _, step1, step2, ?_, rfl⟩
    rw [registerAddress] at same
    simp [Instr.writeResult, same]
  case const_shift =>
    have low_literal : (literalAddress address).toNat < s.cfg.memSize := by rwa [literalAddress_toNat]
    obtain ⟨step1, step2⟩ := two_steps loaded first second rfl (decide_eq_true low_literal)
    refine ⟨_, _, step1, step2, ?_, rfl⟩
    simp [Instr.writeResult]

/-! ### The load before a run -/

/-- Settles O20: the reset state is the fresh state of the empty program. -/
theorem resetHoldsTheValuesOfALoad : Obligations.ResetHoldsTheValuesOfALoad :=
  ⟨fun r => State.fresh_getReg r referenceConfig [], fun a => State.fresh_cell a referenceConfig [], rfl, rfl, rfl, rfl⟩

/-- Settles O22: a fresh engine is `Halted` exactly when its program has no instruction. -/
theorem loadSetsTheStatus : Obligations.LoadSetsTheStatus := by
  intro s stream p decodes
  have empty : (s.load []).status = .halted := rfl
  rw [State.load_of_decodes decodes, State.fresh_status]
  cases p with
  | nil => simp [empty]
  | cons i p => simp [empty]

theorem State.snapshot_of_not_readable {s : State} (h : s.status.readable = false) :
    s.snapshot = .error (.readOutNotEnabled s.status) := by
  simp [State.snapshot, h]

theorem State.dump_of_not_readable {s : State} (h : s.status.readable = false) (start stop : Nat) :
    s.dump start stop = .error (.readOutNotEnabled s.status) := by
  simp [State.dump, h]

/-- Settles O23: the load leaves the error in the status, which stops every reading and every step. -/
theorem failedLoadCanNeitherRunNorBeRead : Obligations.FailedLoadCanNeitherRunNorBeRead := by
  intro s stream e fails
  rcases s.load_cases stream with ⟨p, decodes, -⟩ | ⟨e', fails', failed, cfg⟩
  · simp [fails] at decodes
  · obtain rfl : e = e' := Except.error.inj (fails.symm.trans fails')
    have not_loaded : (s.load stream).status ≠ .loaded := by simp [failed]
    have not_readable : (s.load stream).status.readable = false := by simp [failed, Status.readable]
    obtain ⟨-, run_stays⟩ := stepIsRefusedOutsideLoaded _ not_loaded
    have snapshot := State.snapshot_of_not_readable not_readable
    have dump := State.dump_of_not_readable not_readable
    rw [failed] at snapshot dump
    exact ⟨failed, cfg, step_of_loadFailed failed, run_stays, snapshot, dump⟩

/-- Settles O41: both loads leave the fresh state of the program, from which the runs start. -/
theorem sameStreamRunsTheSame : Obligations.SameStreamRunsTheSame := by
  intro s s' stream p same_cfg decodes
  rw [State.load_of_decodes decodes, State.load_of_decodes (same_cfg.symm ▸ decodes), same_cfg]

/-! ### A run to its end -/

/-- A run of `k + 1` steps is a step and a run of `k` steps, in every machine. -/
theorem host_run_succ_iff {M : Host.Core} {s u : M.State} {k : Nat} :
    M.run (k + 1) s = .next u ↔ ∃ t, M.step s = .next t ∧ M.run k t = .next u := by
  rw [Host.Core.run]
  cases M.step s <;> simp

/-- One more step at the end of a run of steps. -/
theorem host_run_snoc {M : Host.Core} {s t u : M.State} {k : Nat} (steps : M.run k s = .next t)
    (last : M.step t = .next u) : M.run (k + 1) s = .next u := by
  induction k generalizing s with
  | zero => cases steps; exact host_run_succ_iff.2 ⟨u, last, rfl⟩
  | succ k ih =>
    obtain ⟨v, first, others⟩ := host_run_succ_iff.1 steps
    exact host_run_succ_iff.2 ⟨v, first, ih others⟩

/-- A step before a run of steps of the core. -/
theorem core_run_cons {s v u : State} {k : Nat} (first : step s = .next v)
    (steps : Sys2Proof.core.run k v = .next u) : Sys2Proof.core.run (k + 1) s = .next u :=
  host_run_succ_iff.2 ⟨v, first, steps⟩

/-- The two ways in which a run from `s` with `n` instructions left ends in `u`: it completes them all, one step each,
or it aborts at the one after the first `k`, in the state `t` that those leave. -/
inductive RunEnds (s : State) (n : Nat) (u : State) : Prop where
  | completes (steps : Sys2Proof.core.run n s = .next u) (halted : u.status = .halted)
      (each : ∀ k, k < n → ∃ t : State, Sys2Proof.core.run k s = .next t ∧ t.status = .loaded ∧ t.pc = s.pc + k)
  | aborts (k : Nat) (t : State) (a : Word) (before_end : k < n) (steps : Sys2Proof.core.run k s = .next t)
      (loaded : t.status = .loaded) (pc : t.pc = s.pc + k) (high : ¬ t.inBounds a) (last : step t = .next u)
      (eq : u = t.abort ⟨t.pc, a⟩)

/-- A completed step before a run makes a longer run. -/
theorem RunEnds.cons {s v u : State} {n : Nat} (loaded : s.status = .loaded) (first : step s = .next v)
    (pc : v.pc = s.pc + 1) (h : RunEnds v n u) : RunEnds s (n + 1) u := by
  cases h with
  | completes steps halted each =>
    refine .completes (core_run_cons first steps) halted fun k hk => ?_
    cases k with
    | zero => exact ⟨s, rfl, loaded, rfl⟩
    | succ k =>
      obtain ⟨t, steps', loaded', pc'⟩ := each k (by omega)
      exact ⟨t, core_run_cons first steps', loaded', by omega⟩
  | aborts k t a before_end steps loaded' pc' high last eq =>
    exact .aborts (k + 1) t a (by omega) (core_run_cons first steps) loaded' (by omega) high last eq

/-- A run of the `n` instructions left ends in one of the ways of `RunEnds`, by induction on `n`. The status is `Halted`
where none is left, as every completed instruction leaves it. -/
theorem runSteps_ends (n : Nat) {s : State} (status : s.status = haltAt s.pc s.count .loaded)
    (left : s.pc + n = s.count) : RunEnds s n (runSteps n s) := by
  induction n generalizing s with
  | zero =>
    have halted : s.status = .halted := by rw [status, ← left, Nat.add_zero, haltAt_end]
    exact .completes rfl halted fun k hk => absurd hk (Nat.not_lt_zero k)
  | succ n ih =>
    have loaded : s.status = .loaded := by rw [status, haltAt_before (by omega)]
    have inside : s.pc < s.program.length := by rw [← State.count]; omega
    have step_exec := stepRunsTheFetchedInstruction s s.program[s.pc] loaded (List.getElem?_eq_getElem inside)
    rcases exec_cases s.program[s.pc] s with ⟨-, completes⟩ | ⟨not_completes, a, access, aborts⟩
    · have first := step_exec.trans completes
      rw [runSteps, first]
      refine .cons loaded first (by simp) (ih (by simp [loaded]) ?_)
      simp only [State.retire_pc, Instr.writeResult_pc, State.retire_count, Instr.writeResult_count]
      omega
    · have first := step_exec.trans aborts
      have high : ¬ s.inBounds a := by
        rw [Instr.completesIn_of_access access] at not_completes
        exact of_decide_eq_false not_completes
      have stays : runSteps (n + 1) s = s.abort ⟨s.pc, a⟩ := by
        rw [runSteps, first]
        exact runSteps_of_not_loaded (by simp) n
      exact .aborts 0 s a (Nat.succ_pos n) rfl loaded rfl high (stays ▸ first) stays

/-- A run from a well-formed `Loaded` state ends, and `RunEnds` says how. -/
theorem State.run_ends {s : State} (wf : s.wf) (loaded : s.status = .loaded) : RunEnds s (s.count - s.pc) s.run := by
  obtain ⟨-, coherent, -⟩ := wf
  have before_end := (State.coherent_loaded loaded).1 coherent
  exact runSteps_ends _ (by rw [loaded, haltAt_before before_end.ne]) (by omega)

theorem State.run_sameProgram (s : State) : s.SameProgram s.run :=
  State.run_keeps (P := s.SameProgram) (fun _ _ hstep same => same.trans (step_sameProgram hstep)) ⟨rfl, rfl⟩

/-- A run keeps a coherent state coherent. -/
theorem State.run_coherent {s : State} (h : s.coherent) : s.run.coherent :=
  State.run_keeps (P := State.coherent) (fun _ _ hstep _ => step_coherent hstep) h

/-- Settles O38: a run that completes is `Halted`, so at the end of its program by coherence; one that aborts has its
record from a state `k` steps on. -/
theorem runAlwaysEnds : Obligations.RunAlwaysEnds := by
  intro s wf loaded
  obtain ⟨same_program, same_cfg⟩ := s.run_sameProgram
  cases s.run_ends wf loaded with
  | completes steps halted each =>
    obtain ⟨-, coherent, -⟩ := wf
    have at_end := (State.coherent_halted halted).1 (State.run_coherent coherent)
    exact .inl ⟨halted, by rw [at_end, State.count, State.count, same_program]⟩
  | aborts k t a before_end steps loaded' pc high last eq =>
    rw [eq] at same_cfg ⊢
    rw [State.inBounds, ← State.abort_cfg t ⟨t.pc, a⟩, same_cfg] at high
    refine .inr ⟨_, rfl, rfl, ?_, ?_, Nat.not_lt.1 high⟩ <;> dsimp only <;> omega

/-- Settles O39: a run that completes is not aborted, and `RunEnds` gives its steps. -/
theorem completeRunTakesOneStepAnInstruction : Obligations.CompleteRunTakesOneStepAnInstruction := by
  intro s wf loaded completed
  cases s.run_ends wf loaded with
  | completes steps halted each => exact ⟨steps, each⟩
  | aborts k t a before_end steps loaded' pc high last eq =>
    rw [State.completed, eq] at completed
    cases completed

/-- Settles O40: the instructions before the failing one lead to the state in which it aborts, and the record names its
pc. -/
theorem abortsArePrecise : Obligations.AbortsArePrecise := by
  intro s e wf loaded aborted
  cases s.run_ends wf loaded with
  | completes steps halted each => simp [halted] at aborted
  | aborts k t a before_end steps loaded' pc high last eq =>
    have record : ⟨t.pc, a⟩ = e := by
      rw [eq] at aborted
      exact Status.aborted.inj aborted
    subst record
    have steps_before : t.pc - s.pc = k := by omega
    dsimp only
    rw [steps_before]
    exact ⟨t, steps, loaded', rfl, eq, host_run_snoc (M := Sys2Proof.core) steps last⟩

end Sys2Proof.Machine
end

section
/-! SUPPORT. The invariants (R18, R21, R37, R127): well-formed states, the value bound, and full memory. Each is kept by
every step and holds after a load, so it holds in every reachable state. -/

namespace Sys2Proof.Machine

/-! ### Well-formed states -/

/-- A store to an allocated cell keeps the memory canonical and within MEM_SIZE. -/
theorem State.memOk.setCell {s : State} (h : s.memOk) {a : Nat} (low : a < s.cfg.memSize) (v : Word) :
    (s.setCell a v).memOk := by
  obtain ⟨canonical, allocated⟩ := h
  refine ⟨Memory.write_wf canonical a v, fun p listed => ?_⟩
  rcases Memory.mem_write listed with rfl | listed_before
  · exact low
  · exact allocated p listed_before

/-- However an instruction ends, the memory is kept well formed. -/
theorem Ends.memOk {s t : State} (ends : Ends s t) (h : s.memOk) : t.memOk := by
  cases ends with
  | wroteReg | aborted => exact h
  | wroteCell a v low => exact h.setCell low v

/-- Every step keeps a state well formed. -/
theorem step_wf {s t : State} (h : step s = .next t) (wf : s.wf) : t.wf := by
  obtain ⟨legal, -, readable_memOk⟩ := wf
  obtain ⟨loaded, -, ends⟩ := step_ends h
  obtain ⟨-, same_cfg⟩ := step_sameProgram h
  have memOk : s.memOk := readable_memOk (by rw [loaded, Status.readable])
  exact ⟨same_cfg.symm ▸ legal, step_coherent h, fun _ => ends.memOk memOk⟩

/-- Settles O44: each end of an instruction keeps the memory, the parameters and the agreement of status and pc. -/
theorem stepKeepsWellFormed : Obligations.StepKeepsWellFormed := fun _ _ wf h => step_wf h wf

theorem State.fresh_wf {c : Config} (legal : c.wf) (p : List Instr) : (State.fresh c p).wf :=
  ⟨legal, State.fresh_coherent c p, fun _ => ⟨⟨.nil, nofun⟩, nofun⟩⟩

/-- A load keeps the parameters; a fresh memory is empty, and of a failed load's memory nothing is asked. -/
theorem State.load_wf {s : State} (legal : s.cfg.wf) (stream : List Byte) : (s.load stream).wf := by
  rcases s.load_cases stream with ⟨p, -, fresh⟩ | ⟨e, -, failed, same_cfg⟩
  · rw [fresh]
    exact State.fresh_wf legal p
  · refine ⟨same_cfg.symm ▸ legal, s.load_coherent stream, fun readable => ?_⟩
    rw [failed] at readable
    cases readable

/-- Settles O45: a load leaves a well-formed state, and what every step keeps every other request keeps. -/
theorem everyRequestKeepsWellFormed : Obligations.EveryRequestKeepsWellFormed := by
  intro s t q a wf served
  by_cases load : ∃ stream, q = .load stream
  · obtain ⟨stream, rfl⟩ := load
    cases served
    obtain ⟨legal, -, -⟩ := wf
    exact State.load_wf legal stream
  · exact State.serve_keeps (P := State.wf) (fun _ _ => step_wf) served (not_exists.1 load) wf

/-- Settles O46: the reset state is fresh, with legal parameters. -/
theorem resetIsWellFormed : Obligations.ResetIsWellFormed := State.fresh_wf (by decide) []

/-- A fault is a fetch in `Loaded` where no instruction stands. -/
theorem step_fault {s : State} {r : Fault} (h : step s = .fault r) : s.status = .loaded ∧ s.count ≤ s.pc := by
  have loaded : s.status = .loaded := by
    by_contra not_loaded
    rw [step_of_not_loaded not_loaded] at h
    cases h
  refine ⟨loaded, not_lt.1 fun inside => ?_⟩
  obtain ⟨t, next, -⟩ := exec_ends s.program[s.pc] s
  rw [stepRunsTheFetchedInstruction s _ loaded (List.getElem?_eq_getElem inside), next] at h
  cases h

/-- Settles O47: in a coherent `Loaded` state an instruction stands at pc. -/
theorem stepNeverFaultsWhenWellFormed : Obligations.StepNeverFaultsWhenWellFormed := by
  intro s r wf faults
  obtain ⟨loaded, outside⟩ := step_fault faults
  obtain ⟨-, coherent, -⟩ := wf
  exact outside.not_gt ((State.coherent_loaded loaded).1 coherent)

/-! ### The value bound -/

/-- Every register and every cell holds a value below 2^24: what `State.below24` asks of a state that may be read. -/
def State.ValuesBelow24 (s : State) : Prop :=
  (∀ r : RegIndex, (s.getReg r).toNat < 2 ^ 24) ∧ ∀ a : Nat, (s.cell a).toNat < 2 ^ 24

theorem State.ValuesBelow24.setReg {s : State} (h : s.ValuesBelow24) (r : RegIndex) {v : Word}
    (small : v.toNat < 2 ^ 24) : (s.setReg r v).ValuesBelow24 := by
  obtain ⟨regs, cells⟩ := h
  refine ⟨fun r' => ?_, cells⟩
  by_cases same : r' = r
  · rwa [same, State.getReg_setReg_same]
  · rw [State.getReg_setReg_other _ _ _ _ same]
    exact regs r'

theorem State.ValuesBelow24.setCell {s : State} (h : s.ValuesBelow24) (a : Nat) {v : Word}
    (small : v.toNat < 2 ^ 24) : (s.setCell a v).ValuesBelow24 := by
  obtain ⟨regs, cells⟩ := h
  refine ⟨regs, fun b => ?_⟩
  by_cases same : b = a
  · rwa [same, State.setCell_cell_same]
  · rw [State.setCell_cell_other _ _ same]
    exact cells b

/-- What an instruction writes is a 24-bit constant, a value that was there before, or half of one. -/
theorem State.ValuesBelow24.writeResult {s : State} (h : s.ValuesBelow24) (i : Instr) :
    (i.writeResult s).ValuesBelow24 := by
  have ⟨regs, cells⟩ := h
  cases i with
  | loadConst reg value => exact h.setReg reg (by simpa using value.isLt)
  | readMem dst addr => exact h.setReg dst (cells _)
  | writeMem src addr => exact h.setCell _ (regs src)
  | shiftRight reg address =>
    have half_small : (shiftUnit (s.getReg reg)).toNat < 2 ^ 24 := by
      rw [shiftUnit_toNat]
      exact (Nat.div_le_self _ 2).trans_lt (regs reg)
    exact h.setCell _ half_small

theorem valuesBelow24_of_loaded {s : State} (h : s.below24) (loaded : s.status = .loaded) : s.ValuesBelow24 :=
  h (by rw [loaded, Status.readable])

/-- Every step keeps the value bound: it starts in `Loaded`, where the bound holds outright. -/
theorem step_below24 {s t : State} (h : step s = .next t) (below : s.below24) : t.below24 := by
  obtain ⟨loaded, i, -, runs⟩ := step_next h
  have values := valuesBelow24_of_loaded below loaded
  intro _
  rcases exec_cases i s with ⟨-, completes⟩ | ⟨-, a, -, aborts⟩
  · rw [completes] at runs
    cases runs
    exact values.writeResult i
  · rw [aborts] at runs
    cases runs
    exact values

/-- Settles O48: what each instruction writes is below the bound when the values it reads are. -/
theorem stepKeepsValuesBelow24Bits : Obligations.StepKeepsValuesBelow24Bits := fun _ _ below h => step_below24 h below

theorem State.fresh_below24 (c : Config) (p : List Instr) : (State.fresh c p).below24 :=
  fun _ => ⟨fun r => by simp, fun a => by simp⟩

theorem State.load_below24 (s : State) (stream : List Byte) : (s.load stream).below24 := by
  rcases s.load_cases stream with ⟨p, -, fresh⟩ | ⟨e, -, failed, -⟩
  · rw [fresh]
    exact State.fresh_below24 s.cfg p
  · intro readable
    rw [failed] at readable
    cases readable

/-- Settles O49: a fresh engine holds zeros, and a failed load may not be read. -/
theorem loadLeavesValuesBelow24Bits : Obligations.LoadLeavesValuesBelow24Bits :=
  ⟨State.load_below24, State.fresh_below24 referenceConfig []⟩

/-! ### Addresses under the value bound -/

/-- Every address an instruction tries is below 2^30: it is a register's value or a 30-bit literal. -/
theorem Instr.accessAddress_lt {i : Instr} {s : State} {a : Word} (below : s.ValuesBelow24)
    (access : i.accessAddress s = some a) : a.toNat < 2 ^ 30 := by
  obtain ⟨regs, -⟩ := below
  have register_low : ∀ r, (s.getReg r).toNat < 2 ^ 30 := fun r => (regs r).trans (by decide)
  cases i with
  | loadConst => cases access
  | readMem | writeMem => cases access; exact register_low _
  | shiftRight reg address => cases access; exact (literalAddress_toNat address).trans_lt address.isLt

/-- With 2^30 cells every instruction completes. -/
theorem Instr.completesIn_of_fullMemory {s : State} (below : s.ValuesBelow24) (full : 2 ^ 30 ≤ s.cfg.memSize)
    (i : Instr) : i.completesIn s = true := by
  cases access : i.accessAddress s with
  | none => rw [Instr.completesIn, access, Option.all_none]
  | some a =>
    rw [Instr.completesIn_of_access access]
    exact decide_eq_true ((Instr.accessAddress_lt below access).trans_le full)

theorem State.load_cfg (s : State) (stream : List Byte) : (s.load stream).cfg = s.cfg := by
  rcases s.load_cases stream with ⟨p, -, fresh⟩ | ⟨e, -, -, same_cfg⟩
  · rw [fresh, State.fresh_cfg]
  · exact same_cfg

/-- A property of states that every load gives and every step keeps holds in every reachable state. -/
theorem holds_of_reachable {c : Config} {P : State → Prop}
    (load : ∀ (s : State) (stream : List Byte), s.cfg = c → P (s.load stream))
    (step_keeps : ∀ u v, step u = .next v → P u → P v) {s : State} (h : Reachable c s) : P s := by
  induction h with
  | load s stream same_cfg => exact load s stream same_cfg
  | step s t _ hstep ih => exact step_keeps s t hstep ih

/-- The parameters and the value bound, which together keep a step from aborting in full memory. -/
theorem Reachable.cfg_below24 {c : Config} {s : State} (h : Reachable c s) : s.cfg = c ∧ s.below24 :=
  holds_of_reachable (P := fun s => s.cfg = c ∧ s.below24)
    (fun s stream same_cfg => ⟨(s.load_cfg stream).trans same_cfg, s.load_below24 stream⟩)
    (fun _ _ hstep ⟨same_cfg, below⟩ => ⟨(step_sameProgram hstep).2.trans same_cfg, step_below24 hstep below⟩) h

/-- Settles O50: a load aborts nothing, and a step from a reachable state completes, by the value bound. -/
theorem noAbortWithFullMemory : Obligations.NoAbortWithFullMemory := by
  intro c s full reachable e aborted
  cases reachable with
  | load s stream _ =>
    rcases s.load_cases stream with ⟨p, -, fresh⟩ | ⟨e', -, failed, -⟩
    · obtain ⟨-, not_aborted⟩ := State.fresh_no_faultRecord s.cfg p
      exact not_aborted e (fresh ▸ aborted)
    · simp [failed] at aborted
  | step s t before hstep =>
    obtain ⟨same_cfg, below⟩ := before.cfg_below24
    obtain ⟨loaded, i, -, runs⟩ := step_next hstep
    have completes :=
      Instr.completesIn_of_fullMemory (valuesBelow24_of_loaded below loaded) (same_cfg ▸ full) i
    rw [exec_of_completes completes] at runs
    cases runs
    have aborted_before := haltAt_aborted aborted
    simp [loaded] at aborted_before

/-- Settles O51: only the cell stored to changes, and a register holds no address from 2^24 up. -/
theorem highCellsAreWrittenOnlyByShr : Obligations.HighCellsAreWrittenOnlyByShr := by
  intro s t a below hstep high changed
  obtain ⟨loaded, i, fetched, runs⟩ := step_next hstep
  obtain ⟨regs, -⟩ := valuesBelow24_of_loaded below loaded
  obtain ⟨t', runs', -, -, -, cells⟩ := everyInstructionHasItsFrame i s
  cases runs'.symm.trans runs
  have stored : ∃ w : Word, i.storeAddress s = some w ∧ a = w.toNat := by
    by_contra not_stored
    exact changed (cells a fun w store same => not_stored ⟨w, store, same⟩)
  obtain ⟨w, store, rfl⟩ := stored
  cases i with
  | loadConst | readMem => cases store
  | writeMem src addr => cases store; exact absurd (regs addr) high.not_gt
  | shiftRight reg address => cases store; exact ⟨reg, address, fetched, (literalAddress_toNat address).symm⟩

/-! ### The host's read-out -/

/-- Settles O43: the dump maps the addresses from start on, so entry `k` is the cell at `start + k`. -/
theorem dumpListsTheCells : Obligations.DumpListsTheCells := by
  intro s start stop readable
  refine ⟨fun rising allocated => ⟨(List.range' start (stop - start)).map fun a => (a, s.cell a), ?served, ?length,
    fun k inside => ?entry⟩, fun bad => ?refused⟩
  case served => simp [State.serve, State.dump, readable, rising, allocated]
  case length => rw [List.length_map, List.length_range']
  case entry => simp [List.getElem?_range' inside]
  case refused =>
    have bad_range : ¬ (start ≤ stop ∧ stop ≤ s.cfg.memSize) := by omega
    simp [State.serve, State.dump, readable, bad_range]

/-- Settles O52: the three statuses may be read, and entry `r` of the register file is what `getReg` reads. -/
theorem snapshotGivesTheRegisters : Obligations.SnapshotGivesTheRegisters := by
  intro s status
  have readable : s.status.readable = true := by
    rcases status with status | status | ⟨e, status⟩ <;> rw [status, Status.readable]
  exact ⟨s.regs, by simp [State.serve, State.snapshot, readable], fun _ => rfl⟩

end Sys2Proof.Machine
end

section
/-! SUPPORT. The canonical form of memory (R31, R37): the list is decided by what its cells read. -/

namespace Sys2Proof.Machine

/-- A canonical memory lists a cell exactly where it reads the cell's value and that value is not 0. -/
theorem Memory.mem_iff_read {m : Memory} (wf : m.wf) {a : Nat} {v : Word} :
    (a, v) ∈ m ↔ m.read a = v ∧ v ≠ 0#32 := by
  obtain ⟨rising, listed_ne⟩ := wf
  induction m with
  | nil =>
    simp only [List.not_mem_nil, Memory.read_nil, false_iff, not_and, not_not]
    exact Eq.symm
  | cons cell rest ih =>
    obtain ⟨k, w⟩ := cell
    obtain ⟨below_rest, rest_rising⟩ := List.pairwise_cons.1 rising
    obtain ⟨w_ne, rest_ne⟩ := List.forall_mem_cons.1 listed_ne
    by_cases at_head : k = a
    · subst at_head
      have not_in_rest : (k, v) ∉ rest := fun listed => lt_irrefl k (below_rest _ listed)
      simp only [List.mem_cons, Prod.mk.injEq, true_and, not_in_rest, or_false, Memory.read, if_true]
      exact ⟨fun same => ⟨same.symm, same ▸ w_ne⟩, fun ⟨same, _⟩ => same.symm⟩
    · simp only [List.mem_cons, Prod.mk.injEq, Ne.symm at_head, false_and, false_or, Memory.read, at_head, if_false]
      exact ih rest_rising rest_ne

theorem Memory.wf.nodup {m : Memory} (wf : m.wf) : m.Nodup := by
  obtain ⟨rising, -⟩ := wf
  exact rising.imp fun below same => below.ne (congrArg Prod.fst same)

/-- Settles O18: memories that read alike list the same cells, and there is one rising order of them. -/
theorem canonicalMemoriesThatReadAlikeAreEqual : Obligations.CanonicalMemoriesThatReadAlikeAreEqual := by
  intro m m' wf wf' alike
  have same_cells : ∀ cell, cell ∈ m ↔ cell ∈ m' := fun ⟨a, v⟩ => by
    rw [Memory.mem_iff_read wf, Memory.mem_iff_read wf', alike]
  have perm : m.Perm m' := (List.perm_ext_iff_of_nodup (Memory.wf.nodup wf) (Memory.wf.nodup wf')).2 same_cells
  obtain ⟨rising, -⟩ := wf
  obtain ⟨rising', -⟩ := wf'
  exact perm.eq_of_pairwise (fun _ _ _ _ below above => absurd above below.asymm) rising rising'

end Sys2Proof.Machine
end

section
/-! SUPPORT. The Instruction Model and the assembler (R66, R71 to R77, R82): the answers to two operands, and the
answer to a line with two numbers. -/

namespace Sys2Proof

/-! ### The answers of the Instruction Model -/

/-- `x` answers to the number `v` of field `f` by its range: a value that stands for `v`, or the error that names `v`. -/
def ChecksField {α : Type} (f : Field) (v : Nat) (number : α → Nat) (x : Except ValidationError α) : Prop :=
  (v < f.bound ∧ ∃ a, x = .ok a ∧ number a = v) ∨ (f.bound ≤ v ∧ x = .error (.range f v))

theorem checkReg_checksField {f : Field} (bound : f.bound = 32) (v : Nat) :
    ChecksField f v Fin.val (checkReg f v) := by
  rw [ChecksField, bound]
  by_cases inside : v < 32
  · exact .inl ⟨inside, ⟨v, inside⟩, dif_pos inside, rfl⟩
  · exact .inr ⟨Nat.not_lt.1 inside, dif_neg inside⟩

theorem checkBits_checksField {f : Field} {width : Nat} (bound : f.bound = 2 ^ width) (v : Nat) :
    ChecksField f v BitVec.toNat (checkBits f width v) := by
  rw [ChecksField, bound]
  by_cases inside : v < 2 ^ width
  · exact .inl ⟨inside, _, if_pos inside, BitVec.toNat_ofNat v width ▸ Nat.mod_eq_of_lt inside⟩
  · exact .inr ⟨Nat.not_lt.1 inside, if_neg inside⟩

/-- The three answers of the Instruction Model to a kind with two operands (R66): the error of the first field, the error
of the second, or an instruction with those operands. -/
inductive Validates (k : Kind) (a b : Nat) : Except ValidationError Instr → Prop where
  | first (outside : k.fields.1.bound ≤ a) : Validates k a b (.error (.range k.fields.1 a))
  | second (inside : a < k.fields.1.bound) (outside : k.fields.2.bound ≤ b) :
      Validates k a b (.error (.range k.fields.2 b))
  | accepted (inside : a < k.fields.1.bound) (inside' : b < k.fields.2.bound) {i : Instr}
      (operands : i.candidate = ⟨k, [a, b]⟩) : Validates k a b (.ok i)

/-- Two checks in a row, the first operand's before the second's, give one of the three answers. -/
theorem Validates.of_checks {α β : Type} {k : Kind} {a b : Nat} {x : Except ValidationError α}
    {y : Except ValidationError β} {number : α → Nat} {number' : β → Nat} {build : α → β → Instr}
    (first : ChecksField k.fields.1 a number x) (second : ChecksField k.fields.2 b number' y)
    (operands : ∀ u v, (build u v).candidate = ⟨k, [number u, number' v]⟩) :
    Validates k a b (do let u ← x; let v ← y; pure (build u v)) := by
  rcases first with ⟨inside, u, rfl, rfl⟩ | ⟨outside, rfl⟩
  · rcases second with ⟨inside', v, rfl, rfl⟩ | ⟨outside', rfl⟩
    · exact .accepted inside inside' (operands u v)
    · exact .second inside outside'
  · exact .first outside

/-- The Instruction Model checks the two operands of every kind against the ranges of that kind's fields. -/
theorem Candidate.validates (k : Kind) (a b : Nat) : Validates k a b (Candidate.validate ⟨k, [a, b]⟩) := by
  cases k with
  | loadConst => exact .of_checks (checkReg_checksField rfl a) (checkBits_checksField rfl b) fun _ _ => rfl
  | readMem => exact .of_checks (checkReg_checksField rfl a) (checkReg_checksField rfl b) fun _ _ => rfl
  | writeMem => exact .of_checks (checkReg_checksField rfl a) (checkReg_checksField rfl b) fun _ _ => rfl
  | shiftRight => exact .of_checks (checkReg_checksField rfl a) (checkBits_checksField rfl b) fun _ _ => rfl

section Answers

variable {k : Kind} {a b : Nat} {x : Except ValidationError Instr} (h : Validates k a b x)

include h

theorem Validates.eq_first (outside : k.fields.1.bound ≤ a) : x = .error (.range k.fields.1 a) := by
  cases h with
  | first => rfl
  | second inside | accepted inside => exact absurd inside outside.not_gt

theorem Validates.eq_second (inside : a < k.fields.1.bound) (outside : k.fields.2.bound ≤ b) :
    x = .error (.range k.fields.2 b) := by
  cases h with
  | first outside' => exact absurd inside outside'.not_gt
  | second => rfl
  | accepted _ inside' => exact absurd inside' outside.not_gt

theorem Validates.eq_accepted (inside : a < k.fields.1.bound) (inside' : b < k.fields.2.bound) :
    ∃ i : Instr, x = .ok i ∧ i.candidate = ⟨k, [a, b]⟩ := by
  cases h with
  | first outside => exact absurd inside outside.not_gt
  | second _ outside => exact absurd inside' outside.not_gt
  | accepted _ _ operands => exact ⟨_, rfl, operands⟩

theorem Validates.of_ok {i : Instr} (accepted : x = .ok i) :
    a < k.fields.1.bound ∧ b < k.fields.2.bound ∧ i.candidate = ⟨k, [a, b]⟩ := by
  cases h with
  | first | second => cases accepted
  | accepted inside inside' operands => cases accepted; exact ⟨inside, inside', operands⟩

end Answers

/-- What the Instruction Model accepts has two operands, inside the ranges, and they are the instruction's. -/
theorem Candidate.validate_ok {c : Candidate} {i : Instr} (h : c.validate = .ok i) :
    ∃ a b : Nat, c.operands = [a, b] ∧ a < c.kind.fields.1.bound ∧ b < c.kind.fields.2.bound ∧ i.candidate = c := by
  obtain ⟨k, ops⟩ := c
  by_cases count : ops.length = 2
  · obtain ⟨a, b, rfl⟩ := List.length_eq_two.1 count
    obtain ⟨inside, inside', operands⟩ := (Candidate.validates k a b).of_ok h
    exact ⟨a, b, rfl, inside, inside', operands⟩
  · rw [Candidate.validate_wrong_count k count] at h
    cases h

/-- Settles O12: a wrong count is refused, and of two operands each answer is one of `Validates`. -/
theorem validationAcceptsExactlyTheRanges : Obligations.ValidationAcceptsExactlyTheRanges := by
  rintro ⟨k, ops⟩
  refine ⟨⟨?to_ranges, ?from_ranges⟩, ?given_back, Candidate.validate_wrong_count k, ?first, ?second⟩
  case to_ranges =>
    rintro ⟨i, accepted⟩
    obtain ⟨a, b, two, inside, inside', -⟩ := Candidate.validate_ok accepted
    exact ⟨a, b, two, inside, inside'⟩
  case from_ranges =>
    rintro ⟨a, b, rfl, inside, inside'⟩
    obtain ⟨i, accepted, -⟩ := (Candidate.validates k a b).eq_accepted inside inside'
    exact ⟨i, accepted⟩
  case given_back =>
    intro i accepted
    obtain ⟨-, -, -, -, -, operands⟩ := Candidate.validate_ok accepted
    exact operands
  case first =>
    rintro a b rfl
    exact (Candidate.validates k a b).eq_first
  case second =>
    rintro a b rfl
    exact (Candidate.validates k a b).eq_second

/-! ### The operands of a line -/

/-- After the checks of the operands' form and of the mnemonic, what the Instruction Model accepts is the line's. -/
theorem assembleLine_of_ok {line mnemonic : List Char} {remainder : List (List Char)} {k : Kind} {ns : List Nat}
    {i : Instr} (tokens : lineTokens (stripLine line) = mnemonic :: remainder)
    (kind : kindOfMnemonic mnemonic = some k) (numbers : (operandTokens remainder).mapM parseInteger = some ns)
    (accepted : Candidate.validate ⟨k, ns⟩ = .ok i) : assembleLine line = .ok (some i) := by
  simp only [assembleLine, tokens, assembleTokens, numbers, kind, accepted]

/-- Settles O15: the line's answer is the Instruction Model's answer to its two numbers. -/
theorem operandRangesAreChecked : Obligations.OperandRangesAreChecked := by
  intro line mnemonic remainder k a b tokens kind numbers
  have answers := Candidate.validates k a b
  refine ⟨fun outside => ?first, fun inside outside => ?second, fun inside inside' => ?accepted⟩
  case first => exact assembleLine_of_error tokens kind numbers (answers.eq_first outside)
  case second => exact assembleLine_of_error tokens kind numbers (answers.eq_second inside outside)
  case accepted =>
    obtain ⟨i, accepted, operands⟩ := answers.eq_accepted inside inside'
    exact ⟨i, assembleLine_of_ok tokens kind numbers accepted, operands⟩

end Sys2Proof
end

section
/-! SUPPORT. The canonical text (R82, D16): each step of the assembler on a line of the form `MNEMONIC a, b`, where the
mnemonic and the operands are tokens. -/

namespace Sys2Proof

/-- A token: some text, with no whitespace, comment mark or comma in it. -/
structure IsToken (l : List Char) : Prop where
  ne_nil : l ≠ []
  not_blank : ∀ c ∈ l, isBlankChar c = false
  not_comment : ∀ c ∈ l, c ≠ ';'
  not_comma : ∀ c ∈ l, c ≠ ','

/-- A line of a mnemonic and two operands, in the form of D16. -/
def operandLine (m a b : List Char) : List Char := m ++ ' ' :: (a ++ ',' :: ' ' :: b)

/-! ### The steps of the assembler on tokens -/

theorem IsToken.reverse {l : List Char} (h : IsToken l) : IsToken l.reverse where
  ne_nil := mt List.reverse_eq_nil_iff.1 h.ne_nil
  not_blank c hc := h.not_blank c (List.mem_reverse.1 hc)
  not_comment c hc := h.not_comment c (List.mem_reverse.1 hc)
  not_comma c hc := h.not_comma c (List.mem_reverse.1 hc)

/-- No whitespace is dropped in front of a token. -/
theorem IsToken.dropWhile_append {l : List Char} (h : IsToken l) (rest : List Char) :
    (l ++ rest).dropWhile isBlankChar = l ++ rest := by
  obtain ⟨c, l, rfl⟩ := List.exists_cons_of_ne_nil h.ne_nil
  exact List.dropWhile_cons_of_neg (by simp [h.not_blank c List.mem_cons_self])

/-- Text that begins and ends with a token has no whitespace around it. -/
theorem trimText_of_tokens {l m b front back : List Char} (first : IsToken m) (last : IsToken b)
    (begins : l = m ++ back) (ends : l = front ++ b) : trimText l = l := by
  have kept_front : l.dropWhile isBlankChar = l := by rw [begins, first.dropWhile_append]
  have kept_back : l.reverse.dropWhile isBlankChar = l.reverse := by
    rw [ends, List.reverse_append, last.reverse.dropWhile_append]
  rw [trimText, kept_front, kept_back, List.reverse_reverse]

theorem IsToken.trimText_eq {l : List Char} (h : IsToken l) : trimText l = l :=
  trimText_of_tokens h h (List.append_nil l).symm (List.nil_append l).symm

theorem IsToken.trimText_space {l : List Char} (h : IsToken l) : trimText (' ' :: l) = l := by
  have space_dropped : (' ' :: l).dropWhile isBlankChar = l.dropWhile isBlankChar := List.dropWhile_cons_of_pos rfl
  rw [trimText, space_dropped]
  exact h.trimText_eq

section Line

variable {m a b : List Char} (hm : IsToken m) (ha : IsToken a) (hb : IsToken b)

include hm ha hb

/-- Step 1: the line has no comment and no whitespace around it. -/
theorem stripLine_operandLine : stripLine (operandLine m a b) = operandLine m a b := by
  have no_comment : ∀ c ∈ operandLine m a b, c ≠ ';' := by
    intro c hc
    simp only [operandLine, List.mem_append, List.mem_cons] at hc
    rcases hc with hc | rfl | hc | rfl | rfl | hc
    · exact hm.not_comment c hc
    · decide
    · exact ha.not_comment c hc
    · decide
    · decide
    · exact hb.not_comment c hc
  have kept : (operandLine m a b).takeWhile (· ≠ ';') = operandLine m a b :=
    List.takeWhile_eq_self_iff.2 fun c hc => decide_eq_true (no_comment c hc)
  have ends : operandLine m a b = (m ++ ' ' :: (a ++ [',', ' '])) ++ b := by simp [operandLine]
  rw [stripLine, kept]
  exact trimText_of_tokens hm hb rfl ends

/-- Step 2: the tokens of the line are the mnemonic and the operands, the comma with the first of them. -/
theorem lineTokens_operandLine : lineTokens (operandLine m a b) = [m, a ++ [','], b] := by
  have first_not_blank : ∀ c ∈ a ++ [','], isBlankChar c = false := by
    intro c hc
    rcases List.mem_append.1 hc with hc | hc
    · exact ha.not_blank c hc
    · rw [List.mem_singleton.1 hc]; decide
  have line : operandLine m a b = m ++ ' ' :: ((a ++ [',']) ++ ' ' :: b) := by simp [operandLine]
  have split : (operandLine m a b).splitOnP isBlankChar = [m, a ++ [','], b] := by
    rw [line, List.splitOnP_append_cons_of_forall_mem hm.not_blank ' ' rfl,
      List.splitOnP_append_cons_of_forall_mem first_not_blank ' ' rfl, List.splitOnP_eq_singleton hb.not_blank]
  simp [lineTokens, split, hm.ne_nil, hb.ne_nil]

omit hm

/-- The operand tokens are the operands, without the comma and the space between them. -/
theorem operandTokens_pair : operandTokens [a ++ [','], b] = [a, b] := by
  have joined : [' '].intercalate [a ++ [','], b] = a ++ ',' :: ' ' :: b := by simp [List.intercalate]
  have second_no_comma : ∀ c ∈ ' ' :: b, decide (c = ',') = false := by
    intro c hc
    rcases List.mem_cons.1 hc with rfl | hc
    · decide
    · exact decide_eq_false (hb.not_comma c hc)
  rw [operandTokens, joined,
    List.splitOnP_append_cons_of_forall_mem (fun c hc => decide_eq_false (ha.not_comma c hc)) ',' rfl,
    List.splitOnP_eq_singleton second_no_comma, List.map_cons, List.map_singleton, ha.trimText_eq, hb.trimText_space]

end Line

/-! ### Numbers in decimal -/

theorem decDigit_of_isDigit {c : Char} (h : c.isDigit = true) : decDigit c = some (c.toNat - '0'.toNat) := by
  have range : '0' ≤ c ∧ c ≤ '9' := by simpa [Char.isDigit, Char.le_def] using h
  exact if_pos range

theorem digitsFrom_decDigit {l : List Char} (h : ∀ c ∈ l, c.isDigit = true) (acc : Nat) :
    digitsFrom decDigit 10 acc l = some (Nat.ofDigitChars 10 l acc) := by
  induction l generalizing acc with
  | nil => rw [digitsFrom, Nat.ofDigitChars_nil]
  | cons c l ih =>
    obtain ⟨digit, digits⟩ := List.forall_mem_cons.1 h
    rw [digitsFrom, decDigit_of_isDigit digit, Nat.ofDigitChars_cons, Nat.mul_comm 10 acc]
    exact ih digits _

/-- Decimal digits are read as a decimal number: `x` is no digit, so they do not begin with `0x`. -/
theorem parseInteger_of_digits {l : List Char} (ne_nil : l ≠ []) (h : ∀ c ∈ l, c.isDigit = true) :
    parseInteger l = some (Nat.ofDigitChars 10 l 0) := by
  unfold parseInteger
  split
  · exact absurd rfl ne_nil
  · exact absurd (h 'x' (by simp)) (by decide)
  · exact digitsFrom_decDigit h 0

theorem isDigit_of_mem_decimal {n : Nat} {c : Char} (h : c ∈ Nat.toDigits 10 n) : c.isDigit = true :=
  Nat.isDigit_of_mem_toDigits (by decide) (by decide) h

/-- The decimal form of a number is read as that number. -/
theorem parseInteger_decimal (n : Nat) : parseInteger (Nat.toDigits 10 n) = some n := by
  rw [parseInteger_of_digits Nat.toDigits_ne_nil fun _ => isDigit_of_mem_decimal, Nat.ofDigitChars_ten_toDigits]

theorem isToken_decimal (n : Nat) : IsToken (Nat.toDigits 10 n) where
  ne_nil := Nat.toDigits_ne_nil
  not_blank c hc := by
    have digit := isDigit_of_mem_decimal hc
    simp only [isBlankChar, Bool.or_eq_false_iff, decide_eq_false_iff_not]
    refine ⟨⟨?_, ?_⟩, ?_⟩ <;> rintro rfl <;> exact absurd digit (by decide)
  not_comment c hc := by rintro rfl; exact absurd (isDigit_of_mem_decimal hc) (by decide)
  not_comma c hc := by rintro rfl; exact absurd (isDigit_of_mem_decimal hc) (by decide)

/-! ### The text of an instruction -/

theorem isToken_mnemonic (k : Kind) : IsToken k.mnemonic := by
  cases k <;> constructor <;> simp [Kind.mnemonic, isBlankChar]

theorem kindOfMnemonic_mnemonic (k : Kind) : kindOfMnemonic k.mnemonic = some k := by
  cases k <;> decide

theorem Instr.candidate_two_operands (i : Instr) : ∃ x y : Nat, i.candidate = ⟨i.kind, [x, y]⟩ := by
  cases i <;> exact ⟨_, _, rfl⟩

/-- The text of an instruction gives its two operands in decimal. -/
theorem Instr.text_eq_operandLine {i : Instr} {x y : Nat} (operands : i.candidate = ⟨i.kind, [x, y]⟩) :
    i.text = operandLine i.kind.mnemonic (Nat.toDigits 10 x) (Nat.toDigits 10 y) := by
  rw [Instr.text, Instr.operands, operands]
  simp [operandLine, List.intercalate]

/-- The Instruction Model gives every instruction back from its operands (R66). -/
theorem Instr.validate_candidate (i : Instr) : i.candidate.validate = .ok i := by
  cases i with
  | loadConst reg value => exact Laws.CandidateAccepted.loadConst reg value
  | readMem dst addr => exact Laws.CandidateAccepted.readMem dst addr
  | writeMem src addr => exact Laws.CandidateAccepted.writeMem src addr
  | shiftRight reg address => exact Laws.CandidateAccepted.shiftRight reg address

/-- Settles O13: the text is a line of three tokens, whose steps give back the kind and the two numbers, and the
Instruction Model the instruction. -/
theorem canonicalTextAssembles : Obligations.CanonicalTextAssembles := by
  intro i
  obtain ⟨x, y, operands⟩ := i.candidate_two_operands
  have mnemonic := isToken_mnemonic i.kind
  have first := isToken_decimal x
  have second := isToken_decimal y
  have tokens : lineTokens (stripLine i.text) = i.kind.mnemonic :: [Nat.toDigits 10 x ++ [','], Nat.toDigits 10 y] := by
    rw [Instr.text_eq_operandLine operands, stripLine_operandLine mnemonic first second,
      lineTokens_operandLine mnemonic first second]
  have numbers : (operandTokens [Nat.toDigits 10 x ++ [','], Nat.toDigits 10 y]).mapM parseInteger = some [x, y] := by
    rw [operandTokens_pair first second]
    simp [parseInteger_decimal]
  exact assembleLine_of_ok tokens (kindOfMnemonic_mnemonic i.kind) numbers (operands ▸ i.validate_candidate)

end Sys2Proof
end
